-- ==== Sys2Proof/Word.lean ====
section
/-! DEFINITION. The word types of the block (00_scope.md R7, R8, R10): every value is an unsigned bit vector of a fixed width. -/

namespace Sys2Proof

/-- 8 bits: a register, a timer, a memory byte, an immediate NN. -/
abbrev Byte := BitVec 8

/-- 16 bits: I, PC, a stack entry, an instruction word. -/
abbrev Word := BitVec 16

/-- 4 bits: a register index X or Y, a sprite height N, a key number (R10). -/
abbrev Nibble := BitVec 4

/-- 12 bits: an address NNN (R10). -/
abbrev Addr12 := BitVec 12

/-- The index of V[F], the flags register (10_state.md R22). -/
abbrev regF : Nibble := 0xF#4

end Sys2Proof
end

