-- ==== Sys2Proof/Config.lean ====
section
/-! DEFINITION. What is fixed for one machine: the sizes the spec states (00_scope.md R6), and the five parameters it leaves OPEN.
An open parameter is a constant WITHOUT a body: nothing can be proved of its value, so a theorem of the model holds for every value.
A claim that needs a value assumes it as a hypothesis (92_eei_decisions.md D7, D8, D9, D13, D22). -/

namespace Sys2Proof.Config

/-- MEM_SIZE, R6 and 20_memory.md R50: addresses 0x000 to 0xFFF. -/
abbrev memSize : Nat := 4096
/-- FONT_BASE, R6. -/
abbrev fontBase : Nat := 0
/-- FONT_LEN, R6: 16 glyphs of GLYPH_LEN bytes. -/
abbrev fontLen : Nat := 80
/-- GLYPH_LEN, R6. -/
abbrev glyphLen : Nat := 5
/-- PROG_BASE, R6: where the program image starts and the first fetch is (70_reset_and_hazards.md R342). -/
abbrev progBase : Nat := 0x200
/-- MAX_ROM, R6. -/
abbrev maxRom : Nat := 3584
/-- STACK_CAP, R6. -/
abbrev stackCap : Nat := 16
/-- DISP_W, R6. -/
abbrev dispW : Nat := 64
/-- DISP_H, R6. -/
abbrev dispH : Nat := 32

/-- Four 8-bit PRNG lanes (10_state.md R30). -/
structure Lanes where
  p0 : Byte
  p1 : Byte
  p2 : Byte
  p3 : Byte
  deriving DecidableEq, Repr, Inhabited

/-- The source operand of the shifts (43_alu.md R168, R170). -/
inductive ShiftSource where
  /-- V[X]. -/
  | vx
  /-- V[Y]. -/
  | vy
  deriving DecidableEq, Repr, Inhabited

/-- Which of the two writes of WriteRF comes last (40_cycle.md R109). -/
inductive FlagOrder where
  | flagLast
  | resultLast
  deriving DecidableEq, Repr, Inhabited

/-- What 0NNN does (41_control_flow.md R124). -/
inductive SysPolicy where
  | decodeFailure
  | nop
  deriving DecidableEq, Repr, Inhabited

/-- FONT, the byte at offset `k` of the font (20_memory.md R53), read only for `k < fontLen`. OPEN; log entry 1. -/
opaque font (k : Nat) : Byte

/-- shift_source. OPEN; log entry 2. -/
opaque shiftSource : ShiftSource

/-- flag_order. OPEN; log entry 3. -/
opaque flagOrder : FlagOrder

/-- sys_policy. OPEN; log entry 4. -/
opaque sysPolicy : SysPolicy

/-- prng_next, a total function of the four lanes (46_input_timers_random.md R273). OPEN; log entry 5. -/
opaque prngNext (p : Lanes) : Lanes × Byte

/-- The default the spec gives for FONT (R53, from general knowledge): only for claims that assume it. -/
def defaultFont : List Byte :=
  [0xF0, 0x90, 0x90, 0x90, 0xF0, 0x20, 0x60, 0x20, 0x20, 0x70, 0xF0, 0x10, 0xF0, 0x80, 0xF0, 0xF0, 0x10, 0xF0, 0x10, 0xF0]
  ++ [0x90, 0x90, 0xF0, 0x10, 0x10, 0xF0, 0x80, 0xF0, 0x10, 0xF0, 0xF0, 0x80, 0xF0, 0x90, 0xF0, 0xF0, 0x10, 0x20, 0x40, 0x40]
  ++ [0xF0, 0x90, 0xF0, 0x90, 0xF0, 0xF0, 0x90, 0xF0, 0x10, 0xF0, 0xF0, 0x90, 0xF0, 0x90, 0x90, 0xE0, 0x90, 0xE0, 0x90, 0xE0]
  ++ [0xF0, 0x80, 0x80, 0x80, 0xF0, 0xE0, 0x90, 0x90, 0x90, 0xE0, 0xF0, 0x80, 0xF0, 0x80, 0xF0, 0xF0, 0x80, 0xF0, 0x80, 0x80]

/-- The assumption that this machine's FONT is the spec's default. -/
def FontIsDefault : Prop := ∀ k, k < fontLen → font k = defaultFont.getD k 0

/-- The candidate instance of prng_next the spec offers for simulation (note after R273): only for claims that assume
`prngNext = candidatePrngNext`. No meaning uses it. -/
def candidatePrngNext (p : Lanes) : Lanes × Byte :=
  let t : Byte := p.p0 ^^^ (p.p0 <<< 4)
  let q : Byte := p.p3 ^^^ t ^^^ (p.p3 >>> 1) ^^^ (t <<< 1)
  (⟨p.p1, p.p2, p.p3, q⟩, q)

end Sys2Proof.Config
end

