-- ==== Sys2Proof/Syntax.lean ====
section
/-! DEFINITION. The 35 instructions of 30_encoding.md R74, one constructor per row of spec/opcode_table.json, in table order.
`x` and `y` are register indices, `n` a sprite height, `nn` an 8-bit immediate, `nnn` a 12-bit address (00_scope.md R10). -/

namespace Sys2Proof

/-- The instructions; the comment on each names its pattern and its rule. -/
inductive Instr where
  /-- 00E0, 45_display.md R231. -/
  | cls
  /-- 00EE, 41_control_flow.md R120. -/
  | ret
  /-- 0NNN but 00E0 and 00EE, R124. -/
  | sys (nnn : Addr12)
  /-- 1NNN, R122. -/
  | jp (nnn : Addr12)
  /-- 2NNN, R121. -/
  | call (nnn : Addr12)
  /-- 3XNN, 42_skips.md R140. -/
  | seImm (x : Nibble) (nn : Byte)
  /-- 4XNN, R141. -/
  | sneImm (x : Nibble) (nn : Byte)
  /-- 5XY0, R142. -/
  | seReg (x y : Nibble)
  /-- 6XNN, 43_alu.md R160. -/
  | ldImm (x : Nibble) (nn : Byte)
  /-- 7XNN, R161. -/
  | addImm (x : Nibble) (nn : Byte)
  /-- 8XY0, R162. -/
  | ldReg (x y : Nibble)
  /-- 8XY1, R163. -/
  | orReg (x y : Nibble)
  /-- 8XY2, R164. -/
  | andReg (x y : Nibble)
  /-- 8XY3, R165. -/
  | xorReg (x y : Nibble)
  /-- 8XY4, R166. -/
  | addReg (x y : Nibble)
  /-- 8XY5, R167. -/
  | sub (x y : Nibble)
  /-- 8XY6, R168. -/
  | shr (x y : Nibble)
  /-- 8XY7, R169. -/
  | subn (x y : Nibble)
  /-- 8XYE, R170. -/
  | shl (x y : Nibble)
  /-- 9XY0, 42_skips.md R143. -/
  | sneReg (x y : Nibble)
  /-- ANNN, 44_index_memory.md R200. -/
  | ldI (nnn : Addr12)
  /-- BNNN, 41_control_flow.md R123. -/
  | jpV0 (nnn : Addr12)
  /-- CXNN, 46_input_timers_random.md R271. -/
  | rnd (x : Nibble) (nn : Byte)
  /-- DXYN, 45_display.md R234. -/
  | drw (x y n : Nibble)
  /-- EX9E, 46_input_timers_random.md R260. -/
  | skp (x : Nibble)
  /-- EXA1, R261. -/
  | sknp (x : Nibble)
  /-- FX07, R262. -/
  | ldVxDt (x : Nibble)
  /-- FX0A, R274. -/
  | ldVxK (x : Nibble)
  /-- FX15, R263. -/
  | ldDtVx (x : Nibble)
  /-- FX18, R264. -/
  | ldStVx (x : Nibble)
  /-- FX1E, 44_index_memory.md R201. -/
  | addI (x : Nibble)
  /-- FX29, R202. -/
  | ldF (x : Nibble)
  /-- FX33, R203. -/
  | ldB (x : Nibble)
  /-- FX55, R204. -/
  | ldMemVx (x : Nibble)
  /-- FX65, R205. -/
  | ldVxMem (x : Nibble)
  deriving DecidableEq, Repr, Inhabited

end Sys2Proof
end

