-- ==== Sys2Proof/Machine/State.lean ====
section
/-! DEFINITION. The architectural state of the block, plain data, exactly the tuple of 10_state.md R20, and its reset value (R33). -/

namespace Sys2Proof.Machine

/-- Memory: the bytes that differ from what an unlisted address reads as, addresses rising (canonical form: `MemWF` in Ops). -/
abbrev Memory := List Host.Cell

/-- Disp: 32 rows of 64 pixels (10_state.md R28); `true` is lit. -/
abbrev Display := Vector (Vector Bool 64) 32

/-- The fault kinds of 60_exceptions.md R301. A Step that raises one answers a NEXT state whose latch (`State.fault`) holds it (R302):
no step of the model ends in `Outcome.fault` (log entry 6). Every kind is safe: the spec names it. -/
inductive Fault where
  /-- Code 1. Raised by the fetch of a word of R76, and by SYS under sys_policy = decode_failure. -/
  | decodeFailure
  /-- Code 2. Raised by LD_Vx_K. -/
  | unimplementedOpcode
  /-- Code 3. Raised by a fetch, DRW, LD_B, LD_mem_Vx or LD_Vx_mem whose range reaches 4096. -/
  | memoryOutOfRange
  /-- Code 4. Raised by LD_B and LD_mem_Vx on a byte below 0x50. -/
  | readOnlyWrite
  /-- Code 5. Raised by CALL when SP = 16. -/
  | stackOverflow
  /-- Code 6. Raised by RET when SP = 0. -/
  | stackUnderflow
  deriving DecidableEq, Repr

/-- Why the model gives no next state. -/
inductive Refusal where
  /-- An instruction whose meaning is not written yet. Raised by no arm of `exec`: every instruction has its meaning. Safe. -/
  | notModelled (mnemonic : String)
  /-- Raised only by the host transaction Reset on an image longer than 3584 bytes (70_reset_and_hazards.md R341); never by a step. Safe. -/
  | romTooLong
  deriving DecidableEq, Repr

/-- The fault record of 10_state.md R31. -/
structure FaultRecord where
  kind : Fault
  /-- The PC of the faulting step. -/
  pc : Word
  /-- The instruction word, absent when the fetch itself failed. -/
  word : Option Word
  /-- The offending address, for memory faults. -/
  addr : Option Nat
  deriving DecidableEq, Repr

/-- The state of the block (R20). -/
structure State where
  /-- Mem (20_memory.md R50). -/
  mem : Memory
  /-- V[0]..V[15] (R21). -/
  v : Vector Byte 16
  /-- I (R23). -/
  i : Word
  /-- PC (R24). -/
  pc : Word
  /-- S[0]..S[15] (R25). -/
  stack : Vector Word 16
  /-- SP, the number of entries in use (R25). -/
  sp : Fin 17
  /-- DT (R26). -/
  dt : Byte
  /-- ST (R26). -/
  st : Byte
  /-- Key[0]..Key[15]; `true` is pressed (R27). -/
  key : Vector Bool 16
  /-- Disp (R28). -/
  disp : Display
  /-- Q, the load_store quirk flag (R29). -/
  q : Bool
  /-- P, the PRNG lanes (R30). -/
  p : Config.Lanes
  /-- Fault, the latch (R31). -/
  fault : Option FaultRecord
  deriving DecidableEq, Repr

/-- The block right after Reset with an empty image and load_store at its default (R33, 70_reset_and_hazards.md R340):
no byte of memory differs from its reset contents. A program's image comes with the Reset transaction (log entry 8). -/
def State.reset : State where
  mem := []
  v := Vector.replicate 16 0#8
  i := 0#16
  pc := 0x200#16
  stack := Vector.replicate 16 0#16
  sp := 0
  dt := 0#8
  st := 0#8
  key := Vector.replicate 16 false
  disp := Vector.replicate 32 (Vector.replicate 64 false)
  q := false
  p := ⟨0#8, 0#8, 0#8, 1#8⟩
  fault := none

end Sys2Proof.Machine
end

