-- ==== Sys2Proof/Machine/Ops.lean ====
section
/-! DEFINITION. The named operations over memory, registers, the stack, the PRNG, the keys and the fault latch, which every meaning goes
through: the primitives of 00_scope.md R9. -/

namespace Sys2Proof.Machine

/-! ## Memory (20_memory.md) -/

/-- What an address no cell lists reads as: its reset contents, FONT below 0x50 and 0 above (R52, 10_state.md R33; log entry 1). -/
def unlistedByte (a : Nat) : Byte := if a < Config.fontLen then Config.font a else 0#8

/-- `MemRead(a, 1)` (R54). -/
def memRead : Memory → Nat → Byte
  | [], a => unlistedByte a
  | (c, b) :: t, a => if a = c then b else memRead t a

/-- `MemWrite(a, 1, v)` (R55), keeping the canonical form: writing what an unlisted address reads as removes the cell. -/
def memWrite : Memory → Nat → Byte → Memory
  | [], a, v => if v = unlistedByte a then [] else [(a, v)]
  | (c, b) :: t, a, v =>
    if a < c then (if v = unlistedByte a then (c, b) :: t else (a, v) :: (c, b) :: t)
    else if a = c then (if v = unlistedByte a then t else (a, v) :: t)
    else (c, b) :: memWrite t a v

/-- The canonical form: addresses strictly rising and inside the address space (R50), no cell equal to what its address reads unlisted. -/
abbrev MemWF (m : Memory) : Prop :=
  m.Pairwise (fun c d => c.1 < d.1) ∧ ∀ c ∈ m, c.1 < Config.memSize ∧ c.2 ≠ unlistedByte c.1

/-- Bytes at consecutive addresses from `a` up, lowest first. -/
def memReadList (m : Memory) (a : Nat) : Nat → List Byte
  | 0 => []
  | n + 1 => memRead m a :: memReadList m (a + 1) n

/-- Write bytes to consecutive addresses from `a` up, in that order. -/
def memWriteList (m : Memory) (a : Nat) : List Byte → Memory
  | [] => m
  | b :: bs => memWriteList (memWrite m a b) (a + 1) bs

/-! ## Raising a fault (60_exceptions.md) -/

/-- `raise F(info)`: the kind, and the offending address of a memory fault (00_scope.md R9). -/
structure Raise where
  kind : Fault
  addr : Option Nat
  deriving DecidableEq, Repr

/-- `CheckRead(a, n)` (20_memory.md R59): the first failing address of `a .. a+n-1`, on unbounded naturals. -/
def checkRead (a : Nat) : Nat → Option Raise
  | 0 => none
  | n + 1 => if Config.memSize ≤ a then some ⟨.memoryOutOfRange, some a⟩ else checkRead (a + 1) n

/-- `CheckWrite(a, n)` (R59): as `checkRead`, and the font region is read-only (R52). -/
def checkWrite (a : Nat) : Nat → Option Raise
  | 0 => none
  | n + 1 =>
    if Config.memSize ≤ a then some ⟨.memoryOutOfRange, some a⟩
    else if a < Config.fontLen then some ⟨.readOnlyWrite, some a⟩
    else checkWrite (a + 1) n

/-- A state reached only when the check before it found nothing. -/
def guarded (c : Option Raise) (t : State) : Except Raise State :=
  match c with
  | none => .ok t
  | some r => .error r

/-- FAULT ENTRY (R302): the latch is set, everything else is as before the Step (40_cycle.md R107). Nothing is pushed, no register is
saved, PC stays; and there is no return from a fault (R304): only Reset clears the latch (R303). -/
def State.takeFault (s : State) (r : Raise) (word : Option Word) : State :=
  { s with fault := some ⟨r.kind, s.pc, word, r.addr⟩ }

/-- The end of an instruction: its next state, or the fault entry from the state it started in, with the instruction's own word in the
record (R302; log entry 7). -/
def runOrFault (i : Instr) (s : State) (r : Except Raise State) : Host.Outcome State Fault Refusal :=
  .next (match r with
    | .ok t => t
    | .error e => s.takeFault e (some (encode i)))

/-- The numeric code of a fault kind (R301). -/
def faultCode : Fault → Nat
  | .decodeFailure => 1
  | .unimplementedOpcode => 2
  | .memoryOutOfRange => 3
  | .readOnlyWrite => 4
  | .stackOverflow => 5
  | .stackUnderflow => 6

/-! ## Registers (10_state.md R21-R24) -/

/-- `V[x]`. -/
def State.reg (s : State) (x : Nibble) : Byte := s.v[x.toNat]'x.isLt

/-- `V[x] <- b`. -/
def State.setReg (s : State) (x : Nibble) (b : Byte) : State := { s with v := s.v.set x.toNat b x.isLt }

/-- `pc <- a`. -/
def State.setPc (s : State) (a : Word) : State := { s with pc := a }

/-- `I <- a`. -/
def State.setI (s : State) (a : Word) : State := { s with i := a }

/-- `DT <- b`. -/
def State.setDt (s : State) (b : Byte) : State := { s with dt := b }

/-- `ST <- b`. -/
def State.setSt (s : State) (b : Byte) : State := { s with st := b }

/-- `Disp <- d`. -/
def State.setDisp (s : State) (d : Display) : State := { s with disp := d }

/-- `MemWrite(a + k, 1, bs[k])` for each k, in order. -/
def State.storeBytes (s : State) (a : Nat) (bs : List Byte) : State := { s with mem := memWriteList s.mem a bs }

/-- The default next PC, `trunc_16(PC + 2)` (40_cycle.md R104). -/
def State.advance (s : State) : State := s.setPc (s.pc + 2#16)

/-- The next PC of a conditional skip: PC + 4 when the condition holds, else PC + 2 (R106). -/
def State.skipIf (s : State) (c : Bool) : State := s.setPc (if c then s.pc + 4#16 else s.pc + 2#16)

/-! ## The return stack (10_state.md R25) -/

/-- `Push(a)`. -/
def State.push (s : State) (a : Word) : Except Raise State :=
  if h : s.sp.val < Config.stackCap then
    .ok { s with stack := s.stack.set s.sp.val a h, sp := ⟨s.sp.val + 1, Nat.succ_lt_succ h⟩ }
  else .error ⟨.stackOverflow, none⟩

/-- `Pop()`: the popped address and the state with it popped; the entry keeps its value. -/
def State.pop (s : State) : Except Raise (Word × State) :=
  if h : s.sp.val = 0 then .error ⟨.stackUnderflow, none⟩
  else
    .ok (s.stack[s.sp.val - 1]'(by have := s.sp.isLt; omega),
      { s with sp := ⟨s.sp.val - 1, by have := s.sp.isLt; omega⟩ })

/-! ## The PRNG (46_input_timers_random.md R272) and the keys (10_state.md R27) -/

/-- `P <- P'` of `PrngNext()`, `prng_next` being the open parameter of R273. -/
def State.prngAdvance (s : State) : State := { s with p := (Config.prngNext s.p).1 }

/-- The byte `PrngNext()` returns. -/
def State.prngByte (s : State) : Byte := (Config.prngNext s.p).2

/-- `Key[k]`. -/
def State.keyDown (s : State) (k : Nibble) : Bool := s.key[k.toNat]'k.isLt

/-- `Key[k] <- b`, for the host's SetKey alone (R27). -/
def State.putKey (s : State) (k : Nibble) (b : Bool) : State := { s with key := s.key.set k.toNat b k.isLt }

end Sys2Proof.Machine
end

