-- ==== Sys2Proof/Machine/Flags.lean ====
section
/-! DEFINITION. The flag computations of 43_alu.md (R171 lists them all) and the write of a result with its flag (40_cycle.md R109). -/

namespace Sys2Proof.Machine

/-- A flag as V[F] holds it: 1 or 0, bits 7..1 zero (R171). -/
def flagByte (b : Bool) : Byte := if b then 1#8 else 0#8

/-- R166: the exact sum of 9 bits exceeds 0xFF. -/
def carryOut (a b : Byte) : Bool := decide (0xFF < a.toNat + b.toNat)

/-- R167, R169: no borrow, that is minuend >= subtrahend, unsigned; equal operands give true. -/
def noBorrow (minuend subtrahend : Byte) : Bool := decide (subtrahend.toNat ≤ minuend.toNat)

/-- R168: the bit a right shift moves out. -/
def lowBit (src : Byte) : Bool := src.getLsbD 0

/-- R170: the bit a left shift moves out. -/
def highBit (src : Byte) : Bool := src.getLsbD 7

/-- What V[F] holds after WriteRF with x = F: the last of the two writes, by the open parameter flag_order (R109). -/
def lastWritten (res flag : Byte) : Byte :=
  match Config.flagOrder with
  | .flagLast => flag
  | .resultLast => res

/-- `WriteRF(x, res, flag)` (R109). For x other than F both orders give the same state; for x = F only V[F] is written, twice. -/
def State.writeRF (s : State) (x : Nibble) (res flag : Byte) : State :=
  if x = regF then s.setReg regF (lastWritten res flag)
  else (s.setReg x res).setReg regF flag

end Sys2Proof.Machine
end

