-- ==== Sys2Proof/Machine/Operands.lean ====
section
/-! DEFINITION. The operand forms of 30_encoding.md R73 beyond a register and an 8-bit immediate, which are `State.reg` and the byte itself. -/

namespace Sys2Proof.Machine

/-- `zext_16(NNN)`: a 12-bit address as a jump target or a value of I (R72). -/
def addrOperand (nnn : Addr12) : Word := nnn.setWidth 16

/-- `zext_16(V[x])`: a register as an addend of I or PC. -/
def wideReg (s : State) (x : Nibble) : Word := (s.reg x).setWidth 16

/-- The low nibble of V[x], which names a glyph or a key (44_index_memory.md R202, 46_input_timers_random.md R260). -/
def lowNibble (s : State) (x : Nibble) : Nibble := (s.reg x).extractLsb' 0 4

/-- The source of SHR and SHL: V[X] or V[Y] by the open parameter shift_source (43_alu.md R168, R170). -/
def shiftOperand (s : State) (x y : Nibble) : Byte :=
  match Config.shiftSource with
  | .vx => s.reg x
  | .vy => s.reg y

/-- The bytes V[0], ..., V[x], V[0] first (44_index_memory.md R204). -/
def regBlock (s : State) (x : Nibble) : List Byte := s.v.toList.take (x.toNat + 1)

/-- The registers after V[k] <- MemRead(a + k, 1) for k in 0 .. x (R205); those above x are unchanged. -/
def loadRegs (s : State) (a : Nat) (x : Nibble) : State :=
  { s with v := s.v.mapIdx (fun k old => if k ≤ x.toNat then memRead s.mem (a + k) else old) }

/-- The digits FX33 stores: hundreds, tens, ones (R203). -/
def bcdDigits (v : Byte) : List Byte := [v / 100#8, (v / 10#8) % 10#8, v % 10#8]

/-- The address of the glyph of a hex digit (R202). -/
def glyphAddr (d : Nibble) : Word := BitVec.ofNat 16 (Config.fontBase + d.toNat * Config.glyphLen)

/-- I after FX55 or FX65: `trunc_16(I + X + 1)` when Q = 1, unchanged when Q = 0 (R204, R205). -/
def quirkIndex (s : State) (x : Nibble) : Word := if s.q then s.i + x.setWidth 16 + 1#16 else s.i

end Sys2Proof.Machine
end

