-- ==== Sys2Proof/Machine/Alu.lean ====
section
/-! DEFINITION. Register loads and the 8-bit ALU, 43_alu.md. Operands are read from the state at the start of the instruction (40_cycle.md
R108); every instruction ends with PC + 2 (R104) and raises nothing. -/

namespace Sys2Proof.Machine

/-- LD_imm, R160. -/
def execLdImm (x : Nibble) (nn : Byte) (s : State) : Host.Outcome State Fault Refusal :=
  .next (s.setReg x nn).advance

/-- ADD_imm, R161: modulo 256, no flag. -/
def execAddImm (x : Nibble) (nn : Byte) (s : State) : Host.Outcome State Fault Refusal :=
  .next (s.setReg x (s.reg x + nn)).advance

/-- LD_reg, R162. -/
def execLdReg (x y : Nibble) (s : State) : Host.Outcome State Fault Refusal :=
  .next (s.setReg x (s.reg y)).advance

/-- OR, R163. -/
def execOrReg (x y : Nibble) (s : State) : Host.Outcome State Fault Refusal :=
  .next (s.setReg x (s.reg x ||| s.reg y)).advance

/-- AND, R164. -/
def execAndReg (x y : Nibble) (s : State) : Host.Outcome State Fault Refusal :=
  .next (s.setReg x (s.reg x &&& s.reg y)).advance

/-- XOR, R165. -/
def execXorReg (x y : Nibble) (s : State) : Host.Outcome State Fault Refusal :=
  .next (s.setReg x (s.reg x ^^^ s.reg y)).advance

/-- ADD_reg, R166. -/
def execAddReg (x y : Nibble) (s : State) : Host.Outcome State Fault Refusal :=
  .next (s.writeRF x (s.reg x + s.reg y) (flagByte (carryOut (s.reg x) (s.reg y)))).advance

/-- SUB, R167. -/
def execSub (x y : Nibble) (s : State) : Host.Outcome State Fault Refusal :=
  .next (s.writeRF x (s.reg x - s.reg y) (flagByte (noBorrow (s.reg x) (s.reg y)))).advance

/-- SHR, R168. -/
def execShr (x y : Nibble) (s : State) : Host.Outcome State Fault Refusal :=
  .next (s.writeRF x (shiftOperand s x y >>> 1) (flagByte (lowBit (shiftOperand s x y)))).advance

/-- SUBN, R169. -/
def execSubn (x y : Nibble) (s : State) : Host.Outcome State Fault Refusal :=
  .next (s.writeRF x (s.reg y - s.reg x) (flagByte (noBorrow (s.reg y) (s.reg x)))).advance

/-- SHL, R170. -/
def execShl (x y : Nibble) (s : State) : Host.Outcome State Fault Refusal :=
  .next (s.writeRF x (shiftOperand s x y <<< 1) (flagByte (highBit (shiftOperand s x y)))).advance

end Sys2Proof.Machine
end

