-- ==== Sys2Proof/Machine/ControlFlow.lean ====
section
/-! DEFINITION. Control transfer, 41_control_flow.md. Targets are not checked at the transfer but at the next fetch (40_cycle.md R101). -/

namespace Sys2Proof.Machine

/-- RET, R120. -/
def execRet (s : State) : Host.Outcome State Fault Refusal :=
  runOrFault .ret s (s.pop.map (fun r => r.2.setPc r.1))

/-- SYS, R124: the open parameter sys_policy decides. -/
def execSys (nnn : Addr12) (s : State) : Host.Outcome State Fault Refusal :=
  runOrFault (.sys nnn) s (match Config.sysPolicy with
    | .decodeFailure => .error ⟨.decodeFailure, none⟩
    | .nop => .ok s.advance)

/-- JP, R122. -/
def execJp (nnn : Addr12) (s : State) : Host.Outcome State Fault Refusal :=
  .next (s.setPc (addrOperand nnn))

/-- CALL, R121. -/
def execCall (nnn : Addr12) (s : State) : Host.Outcome State Fault Refusal :=
  runOrFault (.call nnn) s ((s.push (s.pc + 2#16)).map (fun t => t.setPc (addrOperand nnn)))

/-- JP_V0, R123: the sum is not reduced modulo 4096, and cannot wrap at 16 bits. -/
def execJpV0 (nnn : Addr12) (s : State) : Host.Outcome State Fault Refusal :=
  .next (s.setPc (addrOperand nnn + wideReg s 0#4))

end Sys2Proof.Machine
end

