-- ==== Sys2Proof/Machine/IndexMemory.lean ====
section
/-! DEFINITION. The index register and the memory transfers, 44_index_memory.md. The whole byte range is checked before the first access
(20_memory.md R59), so a faulting transfer writes nothing. -/

namespace Sys2Proof.Machine

/-- LD_I, R200. -/
def execLdI (nnn : Addr12) (s : State) : Host.Outcome State Fault Refusal :=
  .next (s.setI (addrOperand nnn)).advance

/-- ADD_I, R201: modulo 2^16, no flag. -/
def execAddI (x : Nibble) (s : State) : Host.Outcome State Fault Refusal :=
  .next (s.setI (s.i + wideReg s x)).advance

/-- LD_F, R202. -/
def execLdF (x : Nibble) (s : State) : Host.Outcome State Fault Refusal :=
  .next (s.setI (glyphAddr (lowNibble s x))).advance

/-- LD_B, R203. -/
def execLdB (x : Nibble) (s : State) : Host.Outcome State Fault Refusal :=
  runOrFault (.ldB x) s (guarded (checkWrite s.i.toNat 3)
    (s.storeBytes s.i.toNat (bcdDigits (s.reg x))).advance)

/-- LD_mem_Vx, R204. -/
def execLdMemVx (x : Nibble) (s : State) : Host.Outcome State Fault Refusal :=
  runOrFault (.ldMemVx x) s (guarded (checkWrite s.i.toNat (x.toNat + 1))
    ((s.storeBytes s.i.toNat (regBlock s x)).setI (quirkIndex s x)).advance)

/-- LD_Vx_mem, R205. -/
def execLdVxMem (x : Nibble) (s : State) : Host.Outcome State Fault Refusal :=
  runOrFault (.ldVxMem x) s (guarded (checkRead s.i.toNat (x.toNat + 1))
    ((loadRegs s s.i.toNat x).setI (quirkIndex s x)).advance)

end Sys2Proof.Machine
end

