-- ==== Sys2Proof/Machine/InputTimers.lean ====
section
/-! DEFINITION. Key skips, timer moves, random numbers and the unimplemented wait, 46_input_timers_random.md. -/

namespace Sys2Proof.Machine

/-- SKP, R260. -/
def execSkp (x : Nibble) (s : State) : Host.Outcome State Fault Refusal :=
  .next (s.skipIf (s.keyDown (lowNibble s x)))

/-- SKNP, R261. -/
def execSknp (x : Nibble) (s : State) : Host.Outcome State Fault Refusal :=
  .next (s.skipIf (!s.keyDown (lowNibble s x)))

/-- LD_Vx_DT, R262. -/
def execLdVxDt (x : Nibble) (s : State) : Host.Outcome State Fault Refusal :=
  .next (s.setReg x s.dt).advance

/-- LD_DT_Vx, R263. -/
def execLdDtVx (x : Nibble) (s : State) : Host.Outcome State Fault Refusal :=
  .next (s.setDt (s.reg x)).advance

/-- LD_ST_Vx, R264. -/
def execLdStVx (x : Nibble) (s : State) : Host.Outcome State Fault Refusal :=
  .next (s.setSt (s.reg x)).advance

/-- RND, R271: one draw whatever the mask. -/
def execRnd (x : Nibble) (nn : Byte) (s : State) : Host.Outcome State Fault Refusal :=
  .next (s.prngAdvance.setReg x (s.prngByte &&& nn)).advance

/-- LD_Vx_K, R274: decodes, and always raises UnimplementedOpcode. -/
def execLdVxK (x : Nibble) (s : State) : Host.Outcome State Fault Refusal :=
  runOrFault (.ldVxK x) s (.error ⟨.unimplementedOpcode, none⟩)

end Sys2Proof.Machine
end

