-- ==== Sys2Proof/Machine/Sprites.lean ====
section
/-! DEFINITION. The display buffer, the sprite blitter and the collision bit, 45_display.md. -/

namespace Sys2Proof.Machine

/-- `Disp[r][c]` (10_state.md R28). -/
def pixel (d : Display) (r : Fin 32) (c : Fin 64) : Bool := (d[r.val]'r.isLt)[c.val]'c.isLt

/-- `Disp[r][c] <- b`. -/
def setPixel (d : Display) (r : Fin 32) (c : Fin 64) (b : Bool) : Display :=
  d.set r.val ((d[r.val]'r.isLt).set c.val b c.isLt) r.isLt

/-- `y mod 32` (R233): always wraparound, never clip (R230). -/
def wrapRow (y : Nat) : Fin 32 := ⟨y % 32, Nat.mod_lt y (by decide)⟩

/-- `x mod 64` (R233). -/
def wrapCol (x : Nat) : Fin 64 := ⟨x % 64, Nat.mod_lt x (by decide)⟩

/-- Bit c of a sprite row, c = 0 being bit 7, the leftmost (R232; log entry 15). -/
def spriteBit (row : Byte) (c : Nat) : Bool := row.getLsbD (7 - c)

/-- One pixel of R233's inner loop: the display and the collision bit so far. -/
def blitPixel (acc : Display × Bool) (y x : Nat) (bit : Bool) : Display × Bool :=
  let old := pixel acc.1 (wrapRow y) (wrapCol x)
  (setPixel acc.1 (wrapRow y) (wrapCol x) (old ^^ bit), acc.2 || (bit && old))

/-- The loop over the columns c from `c` up, `n` of them, of one sprite row (R233). -/
def blitCols (acc : Display × Bool) (y x : Nat) (row : Byte) (c : Nat) : Nat → Display × Bool
  | 0 => acc
  | n + 1 => blitCols (blitPixel acc y (x + c) (spriteBit row c)) y x row (c + 1) n

/-- The loop over the sprite's rows (R233). -/
def blitRows (acc : Display × Bool) (y x : Nat) : List Byte → Display × Bool
  | [] => acc
  | row :: rows => blitRows (blitCols acc y x row 0 8) (y + 1) x rows

/-- `DrawSprite(x, y, rows)` (R233): the display after the XOR blit, and the collision bit. -/
def drawSprite (d : Display) (x y : Byte) (rows : List Byte) : Display × Bool := blitRows (d, false) y.toNat x.toNat rows

/-- Every pixel 0 (R231). -/
def clearDisplay : Display := Vector.replicate 32 (Vector.replicate 64 false)

/-- CLS, R231. -/
def execCls (s : State) : Host.Outcome State Fault Refusal :=
  .next (s.setDisp clearDisplay).advance

/-- DRW, R234: coordinates and sprite bytes are read first, V[F] is written last. -/
def execDrw (x y n : Nibble) (s : State) : Host.Outcome State Fault Refusal :=
  let drawn := drawSprite s.disp (s.reg x) (s.reg y) (memReadList s.mem s.i.toNat n.toNat)
  runOrFault (.drw x y n) s (guarded (checkRead s.i.toNat n.toNat)
    ((s.setDisp drawn.1).setReg regF (flagByte drawn.2)).advance)

end Sys2Proof.Machine
end

