-- ==== Sys2Proof/Machine/Fetch.lean ====
section
/-! DEFINITION. The front of a Step: the latch, the fetch and the decode (40_cycle.md R100, R101, R102). -/

namespace Sys2Proof.Machine

/-- What the front of a Step comes to. -/
inductive Front where
  /-- The Step ends here, in this state: the latch was set, or the fetch or the decode raised. -/
  | ends (t : State)
  /-- This instruction is to be executed. -/
  | runs (i : Instr)
  deriving DecidableEq, Repr

/-- `MemRead(PC, 2)`, big-endian (R101, 20_memory.md R56). -/
def State.fetchWord (s : State) : Word := wordOfBytes (memRead s.mem s.pc.toNat) (memRead s.mem (s.pc.toNat + 1))

/-- Latch, fetch check, decode, in the priority of 60_exceptions.md R305. -/
def State.front (s : State) : Front :=
  match s.fault with
  | some _ => .ends s
  | none =>
    match checkRead s.pc.toNat 2 with
    | some r => .ends (s.takeFault r none)
    | none =>
      match decode s.fetchWord with
      | .ok i => .runs i
      | .error _ => .ends (s.takeFault ⟨.decodeFailure, none⟩ (some s.fetchWord))

/-- The state ready to execute the word `w` next: `w` lies at PC, high byte first, the latch is clear, and PC is where a fetch can be (a PC
from which none can is moved to the entry point). -/
def State.placeWord (s : State) (w : Word) : State :=
  let pc : Word := if s.pc.toNat + 1 < Config.memSize then s.pc else BitVec.ofNat 16 Config.progBase
  { s with pc := pc, mem := memWriteList s.mem pc.toNat [highByte w, lowByte w], fault := none }

end Sys2Proof.Machine
end

