-- ==== Sys2Proof/Machine/Step.lean ====
section
/-! DEFINITION. `Step()` of 40_cycle.md R100, and the host's way to place one instruction where the next step fetches. -/

namespace Sys2Proof.Machine

/-- One fetch, decode and execute; nothing at all while the latch is set (R100). -/
def step (s : State) : Host.Outcome State Fault Refusal :=
  match s.front with
  | .ends t => .next t
  | .runs i => exec i s

/-- The instruction of `nbits` table bits `w`, placed to be the next one executed (log entry 8). -/
def State.withFetchWord (s : State) (nbits w : Nat) : State := s.placeWord (BitVec.ofNat 16 (w % 2 ^ nbits))

end Sys2Proof.Machine
end

