-- ==== Sys2Proof/Machine/Transactions.lean ====
section
/-! DEFINITION. The host transactions of 10_state.md R34: each one indivisible state transition, in any order the host likes (R35). -/

namespace Sys2Proof.Machine

/-- `Reset(rom, load_store)` (70_reset_and_hazards.md R340): a whole-state replacement; an image longer than MAX_ROM is refused (R341). -/
def resetWith (rom : List Byte) (loadStore : Bool) : Host.Outcome State Fault Refusal :=
  if rom.length ≤ Config.maxRom then
    .next { State.reset with mem := memWriteList State.reset.mem Config.progBase rom, q := loadStore }
  else .refused .romTooLong

/-- A timer one tick later, floored at 0 (46_input_timers_random.md R275). -/
def countDown (b : Byte) : Byte := if b = 0#8 then 0#8 else b - 1#8

/-- `TimerTick()` (R275): whether or not the latch is set. -/
def State.timerTick (s : State) : State := (s.setDt (countDown s.dt)).setSt (countDown s.st)

/-- `SetKey(k, b)` (R276): whether or not the latch is set. -/
def State.setKey (s : State) (k : Nibble) (b : Bool) : State := s.putKey k b

/-- `ReadDisplay()`: the 2048 bits of Disp, row-major (R34, R28). -/
def State.readDisplay (s : State) : Vector Bool (32 * 64) := s.disp.flatten

/-- `ReadSound()`: ST (R34, R277). -/
def State.readSound (s : State) : Byte := s.st

/-- `ReadFault()`: the latch (R34). -/
def State.readFault (s : State) : Option FaultRecord := s.fault

/-- A host transaction (R34). -/
inductive Transaction where
  | reset (rom : List Byte) (loadStore : Bool)
  | step
  | timerTick
  | setKey (k : Nibble) (b : Bool)
  | readDisplay
  | readSound
  | readFault
  deriving DecidableEq, Repr

/-- A transaction's result (R34). -/
inductive Reply where
  | none
  | display (bits : Vector Bool (32 * 64))
  | sound (st : Byte)
  | fault (record : Option FaultRecord)
  deriving DecidableEq, Repr

/-- A transaction's effect on the state. -/
def transact (t : Transaction) (s : State) : Host.Outcome State Fault Refusal :=
  match t with
  | .reset rom ls => resetWith rom ls
  | .step => step s
  | .timerTick => .next s.timerTick
  | .setKey k b => .next (s.setKey k b)
  | .readDisplay => .next s
  | .readSound => .next s
  | .readFault => .next s

/-- What the host is answered. -/
def reply (t : Transaction) (s : State) : Reply :=
  match t with
  | .reset _ _ => .none
  | .step => .none
  | .timerTick => .none
  | .setKey _ _ => .none
  | .readDisplay => .display s.readDisplay
  | .readSound => .sound s.readSound
  | .readFault => .fault s.readFault

/-- A session: transactions one after another (R35); it stops where one gives no next state. -/
def session : List Transaction → State → Host.Outcome State Fault Refusal
  | [], s => .next s
  | t :: ts, s =>
    match transact t s with
    | .next s' => session ts s'
    | .fault f => .fault f
    | .refused r => .refused r

end Sys2Proof.Machine
end

