-- ==== Sys2Proof/Safety.lean ====
section
/-! DEFINITION. The terms claims are stated in: what a transition may touch (frames), how a fault is latched, a safe run, and the
invariant of the machine. -/

namespace Sys2Proof.Safety

open Sys2Proof.Machine

/-- What a transition may change; everything not named is kept. PC may always change. -/
structure Touches where
  regs : Nibble → Bool := fun _ => false
  index : Bool := false
  stack : Bool := false
  dt : Bool := false
  st : Bool := false
  key : Nibble → Bool := fun _ => false
  display : Bool := false
  quirk : Bool := false
  prng : Bool := false
  latch : Bool := false
  /-- The addresses stored to. -/
  store : Nat → Bool := fun _ => false

/-- The frame: from `s` to `t` nothing changes but what `f` names, and PC. -/
def Within (f : Touches) (s t : State) : Prop :=
  (∀ j, f.regs j = false → t.reg j = s.reg j)
  ∧ (f.index = false → t.i = s.i)
  ∧ (f.stack = false → t.sp = s.sp ∧ ∀ k : Fin 16, t.stack.get k = s.stack.get k)
  ∧ (f.dt = false → t.dt = s.dt)
  ∧ (f.st = false → t.st = s.st)
  ∧ (∀ k, f.key k = false → t.keyDown k = s.keyDown k)
  ∧ (f.display = false → ∀ r c, pixel t.disp r c = pixel s.disp r c)
  ∧ (f.quirk = false → t.q = s.q)
  ∧ (f.prng = false → t.p = s.p)
  ∧ (f.latch = false → t.fault = s.fault)
  ∧ (∀ a, f.store a = false → memRead t.mem a = memRead s.mem a)

/-- One register. -/
def onlyReg (x : Nibble) : Nibble → Bool := fun j => j == x

/-- One register and the flags register. -/
def regAndFlag (x : Nibble) : Nibble → Bool := fun j => j == x || j == regF

/-- The registers V[0] .. V[x]. -/
def regsUpTo (x : Nibble) : Nibble → Bool := fun j => decide (j.toNat ≤ x.toNat)

/-- The `n` addresses from `a` up. -/
def bytesFrom (a n : Nat) : Nat → Bool := fun b => decide (a ≤ b ∧ b < a + n)

/-- `t` is `s` with a fault latched and nothing else changed, PC included (40_cycle.md R107, 60_exceptions.md R302): the record's kind,
PC, word and address. -/
def Latches (s t : State) (kind : Fault) (word : Option Nat) (addr : Option Nat) : Prop :=
  t.pc = s.pc ∧ Within { latch := true } s t
  ∧ ∃ r, t.fault = some r ∧ r.kind = kind ∧ r.pc = s.pc ∧ r.word.map BitVec.toNat = word ∧ r.addr = addr

/-- The result and the flag of WriteRF (40_cycle.md R109), in both flag orders. -/
def WroteRF (x : Nibble) (res flag : Nat) (t : State) : Prop :=
  (x ≠ regF → (t.reg x).toNat = res ∧ (t.reg regF).toNat = flag)
  ∧ (x = regF → (Config.flagOrder = .flagLast ∧ (t.reg regF).toNat = flag) ∨ (Config.flagOrder = .resultLast ∧ (t.reg regF).toNat = res))

/-- The bit the sprite of height `n` at address `a`, drawn at (x, y), has over the pixel of row r and column c, if any
(45_display.md R232, R233): row r - y and column c - x, both with wraparound. -/
def spriteOver (m : Memory) (a n x y : Nat) (r : Fin 32) (c : Fin 64) : Bool :=
  let dr := (r.val + 32 - y % 32) % 32
  let dc := (c.val + 64 - x % 64) % 64
  decide (dr < n) && decide (dc < 8) && (memRead m (a + dr)).getLsbD (7 - dc)

/-- `n` steps end in a state with no fault latched. Since a latched fault stays (R303), none of them raised one. -/
def SafeRun (n : Nat) (s : State) : Prop := ∃ t, core.run n s = .next t ∧ t.fault = none

/-- The font region reads as FONT (20_memory.md R52: immutable). -/
def FontIntact (s : State) : Prop := ∀ a, a < Config.fontLen → memRead s.mem a = Config.font a

/-- The bounds of 10_state.md R24: PC is at most 0x10FE, and no stack entry is above 0x1000. -/
def PcBounded (s : State) : Prop := s.pc.toNat ≤ 0x10FE ∧ ∀ k : Fin 16, (s.stack.get k).toNat ≤ 0x1000

/-- A latched record is precise (R302) and carries what R301's table gives its kind: PC has stayed at the faulting instruction, the word
is absent exactly when the fetch failed, and there is an address exactly for the two memory faults. -/
def LatchPrecise (s : State) : Prop :=
  ∀ r, s.fault = some r →
    r.pc = s.pc
    ∧ (r.word = none ↔ Config.memSize ≤ s.pc.toNat + 1)
    ∧ (r.addr.isSome ↔ r.kind = .memoryOutOfRange ∨ r.kind = .readOnlyWrite)

/-- The invariant of the machine: memory in canonical form, the font intact, PC bounded, the latch precise. -/
def Inv (s : State) : Prop := MemWF s.mem ∧ FontIntact s ∧ PcBounded s ∧ LatchPrecise s

/-- The instructions that set PC themselves (40_cycle.md R105, R106). -/
def setsPc : Instr → Bool
  | .cls => false
  | .ret => true
  | .sys _ => false
  | .jp _ => true
  | .call _ => true
  | .seImm _ _ => true
  | .sneImm _ _ => true
  | .seReg _ _ => true
  | .ldImm _ _ => false
  | .addImm _ _ => false
  | .ldReg _ _ => false
  | .orReg _ _ => false
  | .andReg _ _ => false
  | .xorReg _ _ => false
  | .addReg _ _ => false
  | .sub _ _ => false
  | .shr _ _ => false
  | .subn _ _ => false
  | .shl _ _ => false
  | .sneReg _ _ => true
  | .ldI _ => false
  | .jpV0 _ => true
  | .rnd _ _ => false
  | .drw _ _ _ => false
  | .skp _ => true
  | .sknp _ => true
  | .ldVxDt _ => false
  | .ldVxK _ => false
  | .ldDtVx _ => false
  | .ldStVx _ => false
  | .addI _ => false
  | .ldF _ => false
  | .ldB _ => false
  | .ldMemVx _ => false
  | .ldVxMem _ => false

/-- The instructions that write V[F] as a flag (10_state.md R22). -/
def writesFlag : Instr → Bool
  | .cls => false
  | .ret => false
  | .sys _ => false
  | .jp _ => false
  | .call _ => false
  | .seImm _ _ => false
  | .sneImm _ _ => false
  | .seReg _ _ => false
  | .ldImm _ _ => false
  | .addImm _ _ => false
  | .ldReg _ _ => false
  | .orReg _ _ => false
  | .andReg _ _ => false
  | .xorReg _ _ => false
  | .addReg _ _ => true
  | .sub _ _ => true
  | .shr _ _ => true
  | .subn _ _ => true
  | .shl _ _ => true
  | .sneReg _ _ => false
  | .ldI _ => false
  | .jpV0 _ => false
  | .rnd _ _ => false
  | .drw _ _ _ => true
  | .skp _ => false
  | .sknp _ => false
  | .ldVxDt _ => false
  | .ldVxK _ => false
  | .ldDtVx _ => false
  | .ldStVx _ => false
  | .addI _ => false
  | .ldF _ => false
  | .ldB _ => false
  | .ldMemVx _ => false
  | .ldVxMem _ => false

/-- The register an instruction names as its ordinary destination, if it has one (R22: the X field of 6XNN, 7XNN, 8XY0 to 8XY3, CXNN,
FX07 and FX65; V[X] of the flag instructions of 43_alu.md). FX65 also writes every register below X. -/
def destReg : Instr → Option Nibble
  | .cls => none
  | .ret => none
  | .sys _ => none
  | .jp _ => none
  | .call _ => none
  | .seImm _ _ => none
  | .sneImm _ _ => none
  | .seReg _ _ => none
  | .ldImm x _ => some x
  | .addImm x _ => some x
  | .ldReg x _ => some x
  | .orReg x _ => some x
  | .andReg x _ => some x
  | .xorReg x _ => some x
  | .addReg x _ => some x
  | .sub x _ => some x
  | .shr x _ => some x
  | .subn x _ => some x
  | .shl x _ => some x
  | .sneReg _ _ => none
  | .ldI _ => none
  | .jpV0 _ => none
  | .rnd x _ => some x
  | .drw _ _ _ => none
  | .skp _ => none
  | .sknp _ => none
  | .ldVxDt x => some x
  | .ldVxK _ => none
  | .ldDtVx _ => none
  | .ldStVx _ => none
  | .addI _ => none
  | .ldF _ => none
  | .ldB _ => none
  | .ldMemVx _ => none
  | .ldVxMem x => some x

end Sys2Proof.Safety
end

