-- ==== Sys2Proof/Certificates/Slice0/Obligations.lean ====
section
/-! DEFINITION. The statements for the provers, each from the numbered rules of spec/ its docstring names. The terms they use (`Within`,
`Latches`, `WroteRF`, `spriteOver`, `Inv`) are those of Sys2Proof/Safety.lean. -/

open Sys2Proof Sys2Proof.Machine Sys2Proof.Safety

/-- R74, R75, R77: no bit of an encoding is dropped. Most bit patterns of R74 are marked general knowledge by the spec. -/
def Obligations.DecodeEncodeRoundTrip : Prop :=
  ∀ i : Instr, i.wellFormed = true → decode (encode i) = .ok i

/-- R74, R75: each word has one meaning, and each instruction one word. -/
def Obligations.DecodedWordsEncodeBack : Prop :=
  ∀ (w : Word) (i : Instr), decode w = .ok i → i.wellFormed = true ∧ encode i = w

/-- R75: decoding "is the same as the row of rule R74 whose w & mask = match, with 00E0 and 00EE taking precedence over 0NNN". -/
def Obligations.DecodeFollowsOpcodeTable : Prop :=
  ∀ w : Word,
    (match decode w with
      | .ok i => some i.row.mnemonic
      | .error _ => none) = (tableRows.find? (fun r => r.matchesWord w)).map OpcodeRow.mnemonic

/-- R75: "Apart from the 0NNN overlap, the rows of rule R74 are disjoint, so at most one opcode matches a word". -/
def Obligations.OpcodeRowsOverlapOnlyAtSys : Prop :=
  ∀ (w : Word) (r r' : OpcodeRow), r ∈ tableRows → r' ∈ tableRows → r ≠ r' → r.matchesWord w = true → r'.matchesWord w = true →
    (r.mnemonic = "SYS" ∨ r'.mnemonic = "SYS") ∧ (w = 0x00E0#16 ∨ w = 0x00EE#16)

/-- R76, which the spec marks as derived from R74 and R75. The fields are written as quotients and remainders of the word. -/
def Obligations.IllegalWordsAreTheFiveClasses : Prop :=
  ∀ w : Word,
    (decode w = .error .illegal5 ↔ w.toNat / 4096 = 0x5 ∧ w.toNat % 16 ≠ 0)
    ∧ (decode w = .error .illegal8 ↔ w.toNat / 4096 = 0x8 ∧ (8 ≤ w.toNat % 16 ∧ w.toNat % 16 ≠ 0xE))
    ∧ (decode w = .error .illegal9 ↔ w.toNat / 4096 = 0x9 ∧ w.toNat % 16 ≠ 0)
    ∧ (decode w = .error .illegalE ↔ w.toNat / 4096 = 0xE ∧ w.toNat % 256 ∉ [0x9E, 0xA1])
    ∧ (decode w = .error .illegalF ↔ w.toNat / 4096 = 0xF ∧ w.toNat % 256 ∉ [0x07, 0x0A, 0x15, 0x18, 0x1E, 0x29, 0x33, 0x55, 0x65])
    ∧ decode w ≠ .error .truncated

/-- R74, the encoding column: a sanity statement. -/
def Obligations.WrittenOutWordsDecode : Prop :=
  decode 0b0010001100000000#16 = .ok (.call 0x300)
  ∧ decode 0b0011101001000010#16 = .ok (.seImm 0xA 0x42)
  ∧ decode 0b1000000100101110#16 = .ok (.shl 0x1 0x2)
  ∧ decode 0b1111001001010101#16 = .ok (.ldMemVx 0x2)
  ∧ decode 0b1101000100100101#16 = .ok (.drw 0x1 0x2 0x5)
  ∧ decode 0b1110010010100001#16 = .ok (.sknp 0x4)

/-- R71, R72: the Nibble Codec. The nibbles are written as quotients and remainders of the word. -/
def Obligations.FieldsAndImmediatesMergeBigEndian : Prop :=
  ∀ w : Word,
    (fieldN1 w).toNat = w.toNat / 4096
    ∧ (fieldX w).toNat = w.toNat / 256 % 16
    ∧ (fieldY w).toNat = w.toNat / 16 % 16
    ∧ (fieldN w).toNat = w.toNat % 16
    ∧ (fieldNN w).toNat = (fieldY w).toNat * 16 + (fieldN w).toNat
    ∧ (fieldNNN w).toNat = (fieldX w).toNat * 256 + (fieldY w).toNat * 16 + (fieldN w).toNat
    ∧ (addrOperand (fieldNNN w)).toNat = (fieldNNN w).toNat

/-- R100, R101, R103, R56. That a latched step does nothing is the spec's decision D2; this statement is about the other case. -/
def Obligations.StepRunsDecodedInstruction : Prop :=
  ∀ (s : State) (w : Word) (i : Instr), s.fault = none → s.pc.toNat + 1 < 4096 →
    w.toNat = (memRead s.mem s.pc.toNat).toNat * 256 + (memRead s.mem (s.pc.toNat + 1)).toNat →
    decode w = .ok i → step s = exec i s

/-- R100, R303, which rest on the spec's decision D2. A latched step answers a next state by log entry 6; a run is step alone (log entry 9). -/
def Obligations.LatchedBlockStaysPut : Prop :=
  (∀ s : State, s.fault ≠ none → ∀ n, core.run n s = .next s)
  ∧ (∀ (s : State) (m n : Nat), n ≤ m → SafeRun m s → SafeRun n s)

/-- R101, R301 code 3; the check order and the record are the spec's decisions D5, D17, D28. -/
def Obligations.FetchOutsideMemoryLatches : Prop :=
  ∀ s : State, s.fault = none → 0xFFF ≤ s.pc.toNat →
    ∃ t, step s = .next t ∧ Latches s t .memoryOutOfRange none (some (max s.pc.toNat 4096))

/-- R102, R301 code 1; the record is the spec's decision D28. -/
def Obligations.IllegalWordLatchesDecodeFailure : Prop :=
  ∀ (s : State) (e : Reject), s.fault = none → s.pc.toNat + 1 < 4096 → decode s.fetchWord = .error e →
    ∃ t, step s = .next t ∧ Latches s t .decodeFailure (some s.fetchWord.toNat) none

/-- R107, R302 and the record column of R301: decisions D1, D3, D28 of the spec. -/
def Obligations.FaultingStepChangesOnlyLatch : Prop :=
  ∀ (s t : State) (r : FaultRecord), s.fault = none → step s = .next t → t.fault = some r →
    t = { s with fault := some r }
    ∧ r.pc = s.pc
    ∧ r.word = (if s.pc.toNat + 1 < 4096 then some s.fetchWord else none)
    ∧ (r.addr.isSome = true ↔ r.kind = .memoryOutOfRange ∨ r.kind = .readOnlyWrite)

/-- R112: no halt instruction, no halt state. That a faulting step and a latched one answer a next state too is the model's choice (log
entry 6), which rests on R100, R302 and R303 (decisions D1, D2 of the spec); the last clause iterates step alone (log entry 9). -/
def Obligations.BlockNeverStopsByItself : Prop :=
  (∀ s : State, ∃ t, step s = .next t)
  ∧ (∀ s t : State, s.fault = none → step s = .next t → t.fault = none → ∃ i, s.front = .runs i ∧ exec i s = .next t)
  ∧ (∀ (s : State) (nnn : Addr12), s.fault = none → s.pc.toNat + 1 < 4096 → nnn.toNat = s.pc.toNat →
      decode s.fetchWord = .ok (.jp nnn) → ∀ n, core.run n s = .next s)

/-- R24 (its bound is marked derived), R52 (immutable font, decision D4), R302; the canonical form is the model's own. -/
def Obligations.StepKeepsInvariant : Prop :=
  ∀ s t : State, Inv s → step s = .next t → Inv t

/-- R33. The witness of StepKeepsInvariant. -/
def Obligations.ResetStateHasInvariant : Prop :=
  Inv State.reset

/-- R34, R35 (every interleaving is admitted, decision D19), R340. -/
def Obligations.SessionKeepsInvariant : Prop :=
  ∀ (ts : List Transaction) (s t : State), Inv s → session ts s = .next t → Inv t

/-- R110. -/
def Obligations.TimersAndKeysChangeOnlyByTheirInstructions : Prop :=
  ∀ s t : State, step s = .next t →
    (∀ k, t.keyDown k = s.keyDown k)
    ∧ (t.dt = s.dt ∨ ∃ x, s.front = .runs (.ldDtVx x) ∧ t.dt = s.reg x)
    ∧ (t.st = s.st ∨ ∃ x, s.front = .runs (.ldStVx x) ∧ t.st = s.reg x)

/-- R111, for every prng_next (log entry 5). -/
def Obligations.OnlyRandomDrawsAdvanceThePrng : Prop :=
  ∀ s t : State, step s = .next t →
    (∀ x nn, s.front = .runs (.rnd x nn) → t.p = (Config.prngNext s.p).1)
    ∧ ((∀ x nn, s.front ≠ .runs (.rnd x nn)) → t.p = s.p)
    ∧ (t.fault ≠ none → t.p = s.p)

/-- R29: set once at construction, read-only thereafter; R340. -/
def Obligations.QuirkFlagIsFixedByReset : Prop :=
  ∀ (tr : Transaction) (s t : State), transact tr s = .next t →
    t.q = (match tr with
      | .reset _ loadStore => loadStore
      | _ => s.q)

/-- R58: no other instruction accesses Mem. -/
def Obligations.OnlyStoresChangeMemory : Prop :=
  ∀ (s t : State) (a : Nat), step s = .next t → memRead t.mem a ≠ memRead s.mem a →
    ∃ x, (s.front = .runs (.ldB x) ∧ s.i.toNat ≤ a ∧ a ≤ s.i.toNat + 2)
      ∨ (s.front = .runs (.ldMemVx x) ∧ s.i.toNat ≤ a ∧ a ≤ s.i.toNat + x.toNat)

/-- R52: the font is immutable; that a write there faults is the spec's decision D4. -/
def Obligations.NoStepWritesTheFont : Prop :=
  ∀ (s t : State) (a : Nat), step s = .next t → a < 0x50 → memRead t.mem a = memRead s.mem a

/-- R28: written only by 00E0 and DXYN. -/
def Obligations.OnlyDrawAndClearChangeTheDisplay : Prop :=
  ∀ (s t : State) (r : Fin 32) (c : Fin 64), step s = .next t → pixel t.disp r c ≠ pixel s.disp r c →
    s.front = .runs .cls ∨ ∃ x y n, s.front = .runs (.drw x y n)

/-- R25; the convention that SP counts the entries in use is the spec's decision D15. -/
def Obligations.OnlyCallAndReturnTouchTheStack : Prop :=
  ∀ s t : State, step s = .next t → (t.sp ≠ s.sp ∨ ∃ k : Fin 16, t.stack.get k ≠ s.stack.get k) →
    (∃ nnn, s.front = .runs (.call nnn) ∧ t.sp.val = s.sp.val + 1)
    ∨ (s.front = .runs .ret ∧ t.sp.val + 1 = s.sp.val ∧ ∀ k : Fin 16, t.stack.get k = s.stack.get k)

/-- R23, the writers of I. -/
def Obligations.OnlyIndexInstructionsChangeTheIndex : Prop :=
  ∀ s t : State, step s = .next t → t.i ≠ s.i →
    (∃ nnn, s.front = .runs (.ldI nnn))
    ∨ (∃ x, s.front = .runs (.addI x) ∨ s.front = .runs (.ldF x))
    ∨ (s.q = true ∧ ∃ x, s.front = .runs (.ldMemVx x) ∨ s.front = .runs (.ldVxMem x))

/-- R22, the writers of V[F]. -/
def Obligations.FlagsRegisterWriters : Prop :=
  ∀ s t : State, step s = .next t → t.reg regF ≠ s.reg regF →
    ∃ i, s.front = .runs i ∧ (writesFlag i = true ∨ destReg i = some regF)

/-- R104; that no wrap occurs the spec marks as derived. -/
def Obligations.DefaultNextPcIsPcPlusTwo : Prop :=
  ∀ (s t : State) (i : Instr), s.fault = none → s.front = .runs i → setsPc i = false → step s = .next t → t.fault = none →
    t.pc.toNat = s.pc.toNat + 2

/-- R105, R122; R123, whose sum is not reduced modulo 4096 by decision D17; R120 (the SP convention is decision D15). -/
def Obligations.TransfersSetPcToTheirTarget : Prop :=
  ∀ (s : State) (nnn : Addr12),
    (∃ t, exec (.jp nnn) s = .next t ∧ t.pc.toNat = nnn.toNat ∧ Within {} s t)
    ∧ (∃ t, exec (.jpV0 nnn) s = .next t ∧ t.pc.toNat = nnn.toNat + (s.reg 0).toNat ∧ Within {} s t)
    ∧ (s.sp.val < 16 → ∃ t, exec (.call nnn) s = .next t ∧ t.pc.toNat = nnn.toNat ∧ Within { stack := true } s t)
    ∧ (∀ k : Fin 16, s.sp.val = k.val + 1 → ∃ t, exec .ret s = .next t ∧ t.pc = s.stack.get k ∧ Within { stack := true } s t)

/-- R121, R25 (convention of SP: decision D15). -/
def Obligations.CallPushesTheReturnAddress : Prop :=
  ∀ (nnn : Addr12) (s : State) (k : Fin 16), s.sp.val = k.val →
    ∃ t, exec (.call nnn) s = .next t ∧ t.pc.toNat = nnn.toNat ∧ t.sp.val = k.val + 1
      ∧ t.stack.get k = s.pc + 2#16
      ∧ (∀ j : Fin 16, j ≠ k → t.stack.get j = s.stack.get j)
      ∧ Within { stack := true } s t

/-- R120, R25: an entry above SP keeps its last value. -/
def Obligations.ReturnPopsTheStack : Prop :=
  ∀ (s : State) (k : Fin 16), s.sp.val = k.val + 1 →
    ∃ t, exec .ret s = .next t ∧ t.pc = s.stack.get k ∧ t.sp.val = k.val
      ∧ (∀ j : Fin 16, t.stack.get j = s.stack.get j)
      ∧ Within { stack := true } s t

/-- R25, R120, R121, R301 codes 5 and 6; the record is decision D28. -/
def Obligations.StackFaultsLatch : Prop :=
  ∀ s : State,
    (∀ nnn : Addr12, s.sp.val = 16 → ∃ t, exec (.call nnn) s = .next t ∧ Latches s t .stackOverflow (some (0x2000 + nnn.toNat)) none)
    ∧ (s.sp.val = 0 → ∃ t, exec .ret s = .next t ∧ Latches s t .stackUnderflow (some 0x00EE) none)

/-- R120, R121, worked example W10. -/
def Obligations.CallThenReturnComesBack : Prop :=
  ∀ (nnn : Addr12) (s t u : State), s.sp.val < 16 → exec (.call nnn) s = .next t → exec .ret t = .next u →
    u.pc = s.pc + 2#16 ∧ u.sp = s.sp ∧ Within { stack := true } s u

/-- R124, decision D7 of the spec; log entry 4. -/
def Obligations.SysFollowsItsPolicy : Prop :=
  ∀ (nnn : Addr12) (s : State), ∃ t, exec (.sys nnn) s = .next t
    ∧ ((Config.sysPolicy = .decodeFailure ∧ Latches s t .decodeFailure (some nnn.toNat) none)
      ∨ (Config.sysPolicy = .nop ∧ t.pc = s.pc + 2#16 ∧ Within {} s t))

/-- R140 to R143, R106. -/
def Obligations.RegisterSkips : Prop :=
  ∀ (x y : Nibble) (nn : Byte) (s : State),
    (∃ t, exec (.seImm x nn) s = .next t ∧ t.pc = s.pc + (if (s.reg x).toNat = nn.toNat then 4#16 else 2#16) ∧ Within {} s t)
    ∧ (∃ t, exec (.sneImm x nn) s = .next t ∧ t.pc = s.pc + (if (s.reg x).toNat = nn.toNat then 2#16 else 4#16) ∧ Within {} s t)
    ∧ (∃ t, exec (.seReg x y) s = .next t ∧ t.pc = s.pc + (if (s.reg x).toNat = (s.reg y).toNat then 4#16 else 2#16) ∧ Within {} s t)
    ∧ (∃ t, exec (.sneReg x y) s = .next t ∧ t.pc = s.pc + (if (s.reg x).toNat = (s.reg y).toNat then 2#16 else 4#16) ∧ Within {} s t)

/-- R260, R261, R106. -/
def Obligations.KeySkips : Prop :=
  ∀ (x : Nibble) (s : State),
    (∃ t, exec (.skp x) s = .next t
      ∧ t.pc = s.pc + (if s.key.get (Fin.ofNat 16 (s.reg x).toNat) = true then 4#16 else 2#16) ∧ Within {} s t)
    ∧ (∃ t, exec (.sknp x) s = .next t
      ∧ t.pc = s.pc + (if s.key.get (Fin.ofNat 16 (s.reg x).toNat) = true then 2#16 else 4#16) ∧ Within {} s t)

/-- R160, whose encoding the source shows. -/
def Obligations.LoadImmediateSetsTheRegister : Prop :=
  ∀ (x : Nibble) (nn : Byte) (s : State),
    (∀ w : Word, w.toNat = 0x6000 + 0x100 * x.toNat + nn.toNat → decode w = .ok (.ldImm x nn))
    ∧ ∃ t, exec (.ldImm x nn) s = .next t ∧ t.reg x = nn ∧ t.pc = s.pc + 2#16 ∧ Within { regs := onlyReg x } s t

/-- R161, whose encoding the source shows. -/
def Obligations.AddImmediateWrapsWithoutFlag : Prop :=
  ∀ (x : Nibble) (nn : Byte) (s : State),
    (∀ w : Word, w.toNat = 0x7000 + 0x100 * x.toNat + nn.toNat → decode w = .ok (.addImm x nn))
    ∧ ∃ t, exec (.addImm x nn) s = .next t ∧ (t.reg x).toNat = ((s.reg x).toNat + nn.toNat) % 256
      ∧ t.pc = s.pc + 2#16 ∧ Within { regs := onlyReg x } s t

/-- R162 to R165; that V[F] is not reset by the logic operations is decision D10. -/
def Obligations.CopyAndLogicAreBitwise : Prop :=
  ∀ (x y : Nibble) (s : State),
    (∃ t, exec (.ldReg x y) s = .next t ∧ t.reg x = s.reg y ∧ t.pc = s.pc + 2#16 ∧ Within { regs := onlyReg x } s t)
    ∧ (∃ t, exec (.orReg x y) s = .next t ∧ (∀ k, (t.reg x).getLsbD k = ((s.reg x).getLsbD k || (s.reg y).getLsbD k))
      ∧ t.pc = s.pc + 2#16 ∧ Within { regs := onlyReg x } s t)
    ∧ (∃ t, exec (.andReg x y) s = .next t ∧ (∀ k, (t.reg x).getLsbD k = ((s.reg x).getLsbD k && (s.reg y).getLsbD k))
      ∧ t.pc = s.pc + 2#16 ∧ Within { regs := onlyReg x } s t)
    ∧ (∃ t, exec (.xorReg x y) s = .next t ∧ (∀ k, (t.reg x).getLsbD k = ((s.reg x).getLsbD k ^^ (s.reg y).getLsbD k))
      ∧ t.pc = s.pc + 2#16 ∧ Within { regs := onlyReg x } s t)

/-- R166, R108, R109 (decision D9; log entry 3). -/
def Obligations.AddSetsCarry : Prop :=
  ∀ (x y : Nibble) (s : State), ∃ t, exec (.addReg x y) s = .next t ∧ t.pc = s.pc + 2#16 ∧ Within { regs := regAndFlag x } s t
    ∧ WroteRF x (((s.reg x).toNat + (s.reg y).toNat) % 256) (if 255 < (s.reg x).toNat + (s.reg y).toNat then 1 else 0) t

/-- R167, R169, R108, R109 (decision D9; log entry 3). -/
def Obligations.SubtractSetsNoBorrow : Prop :=
  ∀ (x y : Nibble) (s : State),
    (∃ t, exec (.sub x y) s = .next t ∧ t.pc = s.pc + 2#16 ∧ Within { regs := regAndFlag x } s t
      ∧ WroteRF x (((s.reg x).toNat + 256 - (s.reg y).toNat) % 256) (if (s.reg y).toNat ≤ (s.reg x).toNat then 1 else 0) t)
    ∧ (∃ t, exec (.subn x y) s = .next t ∧ t.pc = s.pc + 2#16 ∧ Within { regs := regAndFlag x } s t
      ∧ WroteRF x (((s.reg y).toNat + 256 - (s.reg x).toNat) % 256) (if (s.reg x).toNat ≤ (s.reg y).toNat then 1 else 0) t)

/-- R168, R170, R109 (decisions D8, D9; log entries 2 and 3). -/
def Obligations.ShiftsMoveOneBitOut : Prop :=
  ∀ (x y : Nibble) (s : State),
    (∃ t, exec (.shr x y) s = .next t ∧ t.pc = s.pc + 2#16 ∧ Within { regs := regAndFlag x } s t
      ∧ ((Config.shiftSource = .vx ∧ WroteRF x ((s.reg x).toNat / 2) ((s.reg x).toNat % 2) t)
        ∨ (Config.shiftSource = .vy ∧ WroteRF x ((s.reg y).toNat / 2) ((s.reg y).toNat % 2) t)))
    ∧ (∃ t, exec (.shl x y) s = .next t ∧ t.pc = s.pc + 2#16 ∧ Within { regs := regAndFlag x } s t
      ∧ ((Config.shiftSource = .vx ∧ WroteRF x ((s.reg x).toNat * 2 % 256) ((s.reg x).toNat / 128) t)
        ∨ (Config.shiftSource = .vy ∧ WroteRF x ((s.reg y).toNat * 2 % 256) ((s.reg y).toNat / 128) t)))

/-- R200, R201 (the wrap is decision D6), R202 (the low nibble is decision D23). -/
def Obligations.IndexLoads : Prop :=
  ∀ (nnn : Addr12) (x : Nibble) (s : State),
    (∃ t, exec (.ldI nnn) s = .next t ∧ t.i.toNat = nnn.toNat ∧ t.pc = s.pc + 2#16 ∧ Within { index := true } s t)
    ∧ (∃ t, exec (.addI x) s = .next t ∧ t.i.toNat = (s.i.toNat + (s.reg x).toNat) % 65536 ∧ t.pc = s.pc + 2#16
      ∧ Within { index := true } s t)
    ∧ (∃ t, exec (.ldF x) s = .next t ∧ t.i.toNat = 5 * ((s.reg x).toNat % 16) ∧ t.pc = s.pc + 2#16 ∧ Within { index := true } s t)

/-- R203; the check of R59 is decisions D4 and D5. -/
def Obligations.DecimalDigitsAreStored : Prop :=
  ∀ (x : Nibble) (s : State), 0x50 ≤ s.i.toNat → s.i.toNat + 2 < 4096 → MemWF s.mem →
    ∃ t, exec (.ldB x) s = .next t
      ∧ 100 * (memRead t.mem s.i.toNat).toNat + 10 * (memRead t.mem (s.i.toNat + 1)).toNat + (memRead t.mem (s.i.toNat + 2)).toNat
          = (s.reg x).toNat
      ∧ (memRead t.mem s.i.toNat).toNat ≤ 2 ∧ (memRead t.mem (s.i.toNat + 1)).toNat ≤ 9 ∧ (memRead t.mem (s.i.toNat + 2)).toNat ≤ 9
      ∧ t.pc = s.pc + 2#16 ∧ Within { store := bytesFrom s.i.toNat 3 } s t

/-- R204; the check of R59 is decisions D4 and D5. -/
def Obligations.BulkStoreCopiesRegisters : Prop :=
  ∀ (x : Nibble) (s : State), 0x50 ≤ s.i.toNat → s.i.toNat + x.toNat < 4096 → MemWF s.mem →
    ∃ t, exec (.ldMemVx x) s = .next t
      ∧ (∀ k : Nibble, k.toNat ≤ x.toNat → memRead t.mem (s.i.toNat + k.toNat) = s.reg k)
      ∧ t.i.toNat = (if s.q = true then s.i.toNat + x.toNat + 1 else s.i.toNat)
      ∧ t.pc = s.pc + 2#16
      ∧ Within { index := true, store := bytesFrom s.i.toNat (x.toNat + 1) } s t

/-- R205; the check of R59 is decision D5. -/
def Obligations.BulkLoadCopiesMemory : Prop :=
  ∀ (x : Nibble) (s : State), s.i.toNat + x.toNat < 4096 →
    ∃ t, exec (.ldVxMem x) s = .next t
      ∧ (∀ k : Nibble, k.toNat ≤ x.toNat → t.reg k = memRead s.mem (s.i.toNat + k.toNat))
      ∧ t.i.toNat = (if s.q = true then s.i.toNat + x.toNat + 1 else s.i.toNat)
      ∧ t.pc = s.pc + 2#16
      ∧ Within { index := true, regs := regsUpTo x } s t

/-- R203, R204, R59, R301 codes 3 and 4: decisions D4, D5, D28. -/
def Obligations.StoreFaultsLatch : Prop :=
  ∀ (x : Nibble) (s : State),
    (s.i.toNat < 0x50 →
      (∃ t, exec (.ldB x) s = .next t ∧ Latches s t .readOnlyWrite (some (0xF033 + 0x100 * x.toNat)) (some s.i.toNat))
      ∧ (∃ t, exec (.ldMemVx x) s = .next t ∧ Latches s t .readOnlyWrite (some (0xF055 + 0x100 * x.toNat)) (some s.i.toNat)))
    ∧ (4096 ≤ s.i.toNat + 2 →
      ∃ t, exec (.ldB x) s = .next t ∧ Latches s t .memoryOutOfRange (some (0xF033 + 0x100 * x.toNat)) (some (max s.i.toNat 4096)))
    ∧ (4096 ≤ s.i.toNat + x.toNat →
      ∃ t, exec (.ldMemVx x) s = .next t ∧ Latches s t .memoryOutOfRange (some (0xF055 + 0x100 * x.toNat)) (some (max s.i.toNat 4096)))

/-- R205, R234, R59, R301 code 3: decisions D5, D28. -/
def Obligations.ReadFaultsLatch : Prop :=
  ∀ (x y n : Nibble) (s : State),
    (4096 ≤ s.i.toNat + x.toNat →
      ∃ t, exec (.ldVxMem x) s = .next t ∧ Latches s t .memoryOutOfRange (some (0xF065 + 0x100 * x.toNat)) (some (max s.i.toNat 4096)))
    ∧ (0 < n.toNat → 4096 < s.i.toNat + n.toNat →
      ∃ t, exec (.drw x y n) s = .next t
        ∧ Latches s t .memoryOutOfRange (some (0xD000 + 0x100 * x.toNat + 0x10 * y.toNat + n.toNat)) (some (max s.i.toNat 4096)))

/-- R204, R205, worked example W7. -/
def Obligations.StoreThenLoadRestoresRegisters : Prop :=
  ∀ (x : Nibble) (s t r u : State), MemWF s.mem → s.fault = none → exec (.ldMemVx x) s = .next t → t.fault = none →
    r.mem = t.mem → r.i = s.i → r.q = s.q → r.fault = none → exec (.ldVxMem x) r = .next u →
    u.fault = none
    ∧ (∀ k : Nibble, k.toNat ≤ x.toNat → u.reg k = s.reg k)
    ∧ u.i.toNat = (if s.q = true then s.i.toNat + x.toNat + 1 else s.i.toNat)

/-- R64, R347 (decision D21). -/
def Obligations.StoredBytesAreFetched : Prop :=
  ∀ (x k j : Nibble) (s t r : State), MemWF s.mem → s.fault = none → exec (.ldMemVx x) s = .next t → t.fault = none →
    k.toNat < x.toNat → j.toNat = k.toNat + 1 → r.mem = t.mem → r.pc.toNat = s.i.toNat + k.toNat →
    r.fetchWord.toNat = (s.reg k).toNat * 256 + (s.reg j).toNat

/-- R231, whose encoding the source shows. -/
def Obligations.ClearScreenClearsEveryPixel : Prop :=
  (∀ w : Word, decode w = .ok .cls ↔ w.toNat = 0x00E0)
  ∧ ∀ s : State, ∃ t, exec .cls s = .next t ∧ (∀ r c, pixel t.disp r c = false) ∧ t.pc = s.pc + 2#16 ∧ Within { display := true } s t

/-- R230, R232 to R234: the loops of R233 in closed form. The bit order is decision D11, N = 0 is D12. -/
def Obligations.DrawXorsTheSpriteOntoTheDisplay : Prop :=
  ∀ (x y n : Nibble) (s : State), (n.toNat = 0 ∨ s.i.toNat + n.toNat ≤ 4096) →
    ∃ t, exec (.drw x y n) s = .next t
      ∧ (∀ r c, pixel t.disp r c = (pixel s.disp r c ^^ spriteOver s.mem s.i.toNat n.toNat (s.reg x).toNat (s.reg y).toNat r c))
      ∧ ((∃ r c, pixel s.disp r c = true ∧ pixel t.disp r c = false) → t.reg regF = 1#8)
      ∧ ((∀ r c, pixel s.disp r c = true → pixel t.disp r c = true) → t.reg regF = 0#8)
      ∧ t.pc = s.pc + 2#16 ∧ Within { regs := onlyReg regF, display := true } s t

/-- R233, R234, worked example W4 as corrected by conflict C4. -/
def Obligations.DrawingTwiceRestoresTheDisplay : Prop :=
  ∀ (x y n : Nibble) (s t u : State), x ≠ regF → y ≠ regF → s.fault = none → exec (.drw x y n) s = .next t → t.fault = none →
    exec (.drw x y n) t = .next u →
    (∀ r c, pixel u.disp r c = pixel s.disp r c)
    ∧ ((∀ r c, pixel s.disp r c = false) →
        (u.reg regF = 1#8 ↔ ∃ k, k < n.toNat ∧ memRead s.mem (s.i.toNat + k) ≠ 0#8))

/-- R262, R263, R264. -/
def Obligations.TimerMoves : Prop :=
  ∀ (x : Nibble) (s : State),
    (∃ t, exec (.ldVxDt x) s = .next t ∧ t.reg x = s.dt ∧ t.pc = s.pc + 2#16 ∧ Within { regs := onlyReg x } s t)
    ∧ (∃ t, exec (.ldDtVx x) s = .next t ∧ t.dt = s.reg x ∧ t.pc = s.pc + 2#16 ∧ Within { dt := true } s t)
    ∧ (∃ t, exec (.ldStVx x) s = .next t ∧ t.st = s.reg x ∧ t.pc = s.pc + 2#16 ∧ Within { st := true } s t)

/-- R271, R272; prng_next is the open parameter of R273 (log entry 5). -/
def Obligations.RandomByteIsMaskedDraw : Prop :=
  ∀ (x : Nibble) (nn : Byte) (s : State), ∃ t, exec (.rnd x nn) s = .next t
    ∧ (∀ k, (t.reg x).getLsbD k = ((Config.prngNext s.p).2.getLsbD k && nn.getLsbD k))
    ∧ t.p = (Config.prngNext s.p).1
    ∧ t.pc = s.pc + 2#16 ∧ Within { regs := onlyReg x, prng := true } s t

/-- R274, R78, R301 code 2; the record is decision D28. -/
def Obligations.WaitForKeyLatchesUnimplemented : Prop :=
  ∀ (x : Nibble) (s : State), ∃ t, exec (.ldVxK x) s = .next t
    ∧ Latches s t .unimplementedOpcode (some (0xF00A + 0x100 * x.toNat)) none
    ∧ faultCode .unimplementedOpcode = 2 ∧ faultCode .decodeFailure = 1

/-- R275, R26; that it acts while the latch is set is decision D20. -/
def Obligations.TimerTickCountsDownToZero : Prop :=
  ∀ s : State, ∃ t, transact .timerTick s = .next t
    ∧ t.dt.toNat = s.dt.toNat - 1 ∧ t.st.toNat = s.st.toNat - 1
    ∧ t.pc = s.pc ∧ Within { dt := true, st := true } s t

/-- R276, R27; that it acts while the latch is set is decision D20. -/
def Obligations.SetKeyWritesOneKey : Prop :=
  ∀ (k : Nibble) (b : Bool) (s : State), ∃ t, transact (.setKey k b) s = .next t
    ∧ t.keyDown k = b ∧ t.pc = s.pc ∧ Within { key := fun j => j == k } s t

/-- R34, R28, R277 (ReadSound is decision D27). -/
def Obligations.ReadsAnswerAndChangeNothing : Prop :=
  ∀ s : State,
    (∀ tr ∈ [Transaction.readDisplay, .readSound, .readFault], transact tr s = .next s)
    ∧ (∃ bits, reply .readDisplay s = .display bits
        ∧ ∀ (r : Fin 32) (c : Fin 64), bits[r.val * 64 + c.val]? = some (pixel s.disp r c))
    ∧ reply .readSound s = .sound s.st
    ∧ reply .readFault s = .fault s.fault

/-- R340, R33 (the latch is decision D2, the seeding of P at every Reset D14; FONT is the open parameter of log entry 1). -/
def Obligations.ResetLeavesTheSpecifiedState : Prop :=
  ∀ (rom : List Byte) (loadStore : Bool) (s : State), rom.length ≤ 3584 →
    ∃ t, transact (.reset rom loadStore) s = .next t
      ∧ (∀ a, a < 0x50 → memRead t.mem a = Config.font a)
      ∧ (∀ k b, rom[k]? = some b → memRead t.mem (0x200 + k) = b)
      ∧ (∀ a, 0x50 ≤ a → (a < 0x200 ∨ 0x200 + rom.length ≤ a) → memRead t.mem a = 0#8)
      ∧ (∀ j, t.reg j = 0#8) ∧ t.i = 0#16 ∧ t.pc = 0x200#16
      ∧ t.sp.val = 0 ∧ (∀ k : Fin 16, t.stack.get k = 0#16)
      ∧ t.dt = 0#8 ∧ t.st = 0#8 ∧ (∀ k, t.keyDown k = false) ∧ (∀ r c, pixel t.disp r c = false)
      ∧ t.q = loadStore ∧ t.p = ⟨0#8, 0#8, 0#8, 1#8⟩ ∧ t.fault = none
      ∧ (rom = [] → loadStore = false → t = State.reset)

/-- R342. -/
def Obligations.ExecutionStartsAtTheImage : Prop :=
  ∀ (rom : List Byte) (loadStore : Bool) (s t : State), transact (.reset rom loadStore) s = .next t →
    t.pc.toNat = 0x200
    ∧ (∀ k b, rom[k]? = some b → memRead t.mem (0x200 + k) = b)
    ∧ (∀ b0 b1 rest, rom = b0 :: b1 :: rest → t.fetchWord.toNat = b0.toNat * 256 + b1.toNat)

/-- R341, decision D18 of the spec. -/
def Obligations.ResetRefusesLongImages : Prop :=
  ∀ (rom : List Byte) (loadStore : Bool) (s : State), transact (.reset rom loadStore) s = .refused .romTooLong ↔ 3584 < rom.length
end

