-- ==== Sys2Proof/Laws/Codec.lean ====
section
/-! SUPPORT. The fields of an encoded word are the operands put into it, and a word is its four nibbles (30_encoding.md R71, R72). -/

namespace Sys2Proof

@[simp] theorem fieldN1_encXNN (g x : Nibble) (nn : Byte) : fieldN1 (encXNN g x nn) = g := by
  ext i hi
  simp only [fieldN1, encXNN, BitVec.getElem_extractLsb', BitVec.getLsbD_append]
  simp [BitVec.getLsbD_eq_getElem, hi, show ¬ 12 + i < 8 by omega, show ¬ 12 + i - 8 < 4 by omega, show 12 + i - 8 - 4 = i by omega]

@[simp] theorem fieldX_encXNN (g x : Nibble) (nn : Byte) : fieldX (encXNN g x nn) = x := by
  ext i hi
  simp only [fieldX, encXNN, BitVec.getElem_extractLsb', BitVec.getLsbD_append]
  simp [BitVec.getLsbD_eq_getElem, hi]

@[simp] theorem fieldNN_encXNN (g x : Nibble) (nn : Byte) : fieldNN (encXNN g x nn) = nn := by
  ext i hi
  simp only [fieldNN, encXNN, BitVec.getElem_extractLsb', BitVec.getLsbD_append]
  simp [BitVec.getLsbD_eq_getElem, hi]

@[simp] theorem fieldN1_encNNN (g : Nibble) (nnn : Addr12) : fieldN1 (encNNN g nnn) = g := by
  ext i hi
  simp only [fieldN1, encNNN, BitVec.getElem_extractLsb', BitVec.getLsbD_append]
  simp [BitVec.getLsbD_eq_getElem, hi]

@[simp] theorem fieldNNN_encNNN (g : Nibble) (nnn : Addr12) : fieldNNN (encNNN g nnn) = nnn := by
  ext i hi
  simp only [fieldNNN, encNNN, BitVec.getElem_extractLsb', BitVec.getLsbD_append]
  simp [BitVec.getLsbD_eq_getElem, hi]

@[simp] theorem fieldN1_encXYN (g x y n : Nibble) : fieldN1 (encXYN g x y n) = g := by
  ext i hi
  simp only [fieldN1, encXYN, BitVec.getElem_extractLsb', BitVec.getLsbD_append]
  simp [BitVec.getLsbD_eq_getElem, hi, show ¬ 12 + i < 4 by omega, show ¬ 12 + i - 4 < 4 by omega, show ¬ 12 + i - 4 - 4 < 4 by omega,
    show 12 + i - 4 - 4 - 4 = i by omega]

@[simp] theorem fieldX_encXYN (g x y n : Nibble) : fieldX (encXYN g x y n) = x := by
  ext i hi
  simp only [fieldX, encXYN, BitVec.getElem_extractLsb', BitVec.getLsbD_append]
  simp [BitVec.getLsbD_eq_getElem, hi, show ¬ 8 + i < 4 by omega, show ¬ 8 + i - 4 < 4 by omega, show 8 + i - 4 - 4 = i by omega]

@[simp] theorem fieldY_encXYN (g x y n : Nibble) : fieldY (encXYN g x y n) = y := by
  ext i hi
  simp only [fieldY, encXYN, BitVec.getElem_extractLsb', BitVec.getLsbD_append]
  simp [BitVec.getLsbD_eq_getElem, hi]

@[simp] theorem fieldN_encXYN (g x y n : Nibble) : fieldN (encXYN g x y n) = n := by
  ext i hi
  simp only [fieldN, encXYN, BitVec.getElem_extractLsb', BitVec.getLsbD_append]
  simp [BitVec.getLsbD_eq_getElem, hi]

/-- A word put together from its fields. -/
theorem encXYN_fields (w : Word) : encXYN (fieldN1 w) (fieldX w) (fieldY w) (fieldN w) = w := by
  apply BitVec.eq_of_getLsbD_eq
  intro i hi
  simp only [encXYN, fieldN1, fieldX, fieldY, fieldN, BitVec.getLsbD_append, BitVec.getLsbD_extractLsb']
  by_cases h1 : i < 4
  · simp [h1]
  · by_cases h2 : i < 8
    · simp [h1, show i - 4 < 4 by omega, show 4 + (i - 4) = i by omega]
    · by_cases h3 : i < 12
      · simp [h1, show ¬ i - 4 < 4 by omega, show i - 4 - 4 < 4 by omega, show 8 + (i - 4 - 4) = i by omega]
      · simp [h1, show ¬ i - 4 < 4 by omega, show ¬ i - 4 - 4 < 4 by omega, show 12 + (i - 4 - 4 - 4) = i by omega,
          show i - 4 - 4 - 4 < 4 by omega]

/-- The byte NN is the nibbles Y and N, Y the higher (R72). -/
theorem fieldNN_eq (w : Word) : fieldNN w = fieldY w ++ fieldN w := by
  apply BitVec.eq_of_getLsbD_eq
  intro i hi
  simp only [fieldNN, fieldY, fieldN, BitVec.getLsbD_append, BitVec.getLsbD_extractLsb']
  by_cases h1 : i < 4
  · simp [h1, hi]
  · simp [h1, hi, show i - 4 < 4 by omega, show 4 + (i - 4) = i by omega]

/-- The two bytes of a word put together again (20_memory.md R56). -/
@[simp] theorem wordOfBytes_bytes (w : Word) : wordOfBytes (highByte w) (lowByte w) = w := by
  apply BitVec.eq_of_getLsbD_eq
  intro i hi
  simp only [wordOfBytes, highByte, lowByte, BitVec.getLsbD_append, BitVec.getLsbD_extractLsb']
  by_cases h1 : i < 8
  · simp [h1]
  · simp [h1, show i - 8 < 8 by omega, show 8 + (i - 8) = i by omega]

/-- Masking a word of a shape masks its fields. -/
theorem encXNN_and (g x g' x' : Nibble) (nn nn' : Byte) :
    encXNN g x nn &&& encXNN g' x' nn' = encXNN (g &&& g') (x &&& x') (nn &&& nn') := by
  exact BitVec.and_append.trans (congrArg (fun z : BitVec 8 => z ++ (nn &&& nn')) BitVec.and_append)

theorem encNNN_and (g g' : Nibble) (a a' : Addr12) : encNNN g a &&& encNNN g' a' = encNNN (g &&& g') (a &&& a') := by
  exact BitVec.and_append

theorem encXYN_and (g x y n g' x' y' n' : Nibble) :
    encXYN g x y n &&& encXYN g' x' y' n' = encXYN (g &&& g') (x &&& x') (y &&& y') (n &&& n') := by
  exact BitVec.and_append.trans (congrArg (fun z : BitVec 12 => z ++ (n &&& n'))
    (BitVec.and_append.trans (congrArg (fun z : BitVec 8 => z ++ (y &&& y')) BitVec.and_append)))

/-- The value of a word of each shape. -/
theorem encXNN_toNat (g x : Nibble) (nn : Byte) : (encXNN g x nn).toNat = g.toNat * 4096 + x.toNat * 256 + nn.toNat := by
  have h : encXNN g x nn = ((g ++ x : BitVec 8) ++ nn) := rfl
  rw [h, BitVec.toNat_append, ← Nat.shiftLeft_add_eq_or_of_lt nn.isLt, BitVec.toNat_append, ← Nat.shiftLeft_add_eq_or_of_lt x.isLt]
  simp only [Nat.shiftLeft_eq]
  omega

theorem encNNN_toNat (g : Nibble) (nnn : Addr12) : (encNNN g nnn).toNat = g.toNat * 4096 + nnn.toNat := by
  have h : encNNN g nnn = (g ++ nnn) := rfl
  rw [h, BitVec.toNat_append, ← Nat.shiftLeft_add_eq_or_of_lt nnn.isLt]
  simp only [Nat.shiftLeft_eq]

theorem encXYN_toNat (g x y n : Nibble) : (encXYN g x y n).toNat = g.toNat * 4096 + x.toNat * 256 + y.toNat * 16 + n.toNat := by
  have h : encXYN g x y n = (((g ++ x : BitVec 8) ++ y : BitVec 12) ++ n) := rfl
  rw [h, BitVec.toNat_append, ← Nat.shiftLeft_add_eq_or_of_lt n.isLt, BitVec.toNat_append, ← Nat.shiftLeft_add_eq_or_of_lt y.isLt, BitVec.toNat_append, ← Nat.shiftLeft_add_eq_or_of_lt x.isLt]
  simp only [Nat.shiftLeft_eq]
  omega

end Sys2Proof
end

