-- ==== Sys2Proof/Laws/Memory.lean ====
section
/-! SUPPORT. The laws of memory: a read after a write, what a write leaves alone, and that every memory operation keeps the canonical
form `MemWF`. -/

namespace Sys2Proof.Machine

/-- A write leaves every other address alone, in any memory (20_memory.md R55). -/
theorem memRead_memWrite_other {a b : Nat} (h : b ≠ a) (v : Byte) : ∀ m : Memory, memRead (memWrite m a v) b = memRead m b
  | [] => by
    unfold memWrite
    split <;> simp [memRead, h]
  | (c, w) :: t => by
    have ih := memRead_memWrite_other h v t
    unfold memWrite
    split
    · split <;> simp [memRead, h]
    · split
      · next e => subst e; split <;> simp [memRead, h]
      · simp [memRead, ih]

/-- An address below every cell reads as unlisted. -/
theorem memRead_unlisted {a : Nat} : ∀ {m : Memory}, (∀ c ∈ m, a < c.1) → memRead m a = unlistedByte a
  | [], _ => rfl
  | (c, w) :: t, h => by
    have hc : a < c := h (c, w) (by simp)
    have ht := memRead_unlisted (m := t) (fun d hd => h d (by simp [hd]))
    simp [memRead, Nat.ne_of_lt hc, ht]

/-- The tail of a memory in canonical form is in canonical form, and lies above its head. -/
theorem MemWF.tail {c : Host.Cell} {t : Memory} (h : MemWF (c :: t)) : MemWF t ∧ ∀ d ∈ t, c.1 < d.1 :=
  ⟨⟨(List.pairwise_cons.mp h.1).2, fun d hd => h.2 d (by simp [hd])⟩, (List.pairwise_cons.mp h.1).1⟩

/-- A read after a write to the same address gives the value written (R55). -/
theorem memRead_memWrite_same (a : Nat) (v : Byte) : ∀ {m : Memory}, MemWF m → memRead (memWrite m a v) a = v
  | [], _ => by
    unfold memWrite
    split
    · next e => simp [memRead, e]
    · simp [memRead]
  | (c, w) :: t, h => by
    obtain ⟨ht, hlt⟩ := h.tail
    have ih := memRead_memWrite_same a v ht
    unfold memWrite
    split
    · next hac =>
      split
      · next e =>
        rw [memRead_unlisted, e]
        intro d hd
        rcases List.mem_cons.mp hd with rfl | hd
        · exact hac
        · exact Nat.lt_trans hac (hlt d hd)
      · simp [memRead]
    · split
      · next hac =>
        subst hac
        split
        · next e => rw [memRead_unlisted hlt, e]
        · simp [memRead]
      · next hne => simp [memRead, hne, ih]

/-- Every cell of a written memory is the written one or an old one. -/
theorem mem_memWrite {a : Nat} {v : Byte} {d : Host.Cell} : ∀ {m : Memory}, d ∈ memWrite m a v → (d = (a, v) ∧ v ≠ unlistedByte a) ∨ d ∈ m
  | [], h => by
    unfold memWrite at h
    split at h
    · simp at h
    · next e => exact .inl ⟨by simpa using h, e⟩
  | (c, w) :: t, h => by
    unfold memWrite at h
    split at h
    · split at h
      · exact .inr h
      · next e =>
        rcases List.mem_cons.mp h with rfl | h
        · exact .inl ⟨rfl, e⟩
        · exact .inr h
    · split at h
      · split at h
        · exact .inr (by simp [h])
        · next e =>
          rcases List.mem_cons.mp h with rfl | h
          · exact .inl ⟨rfl, e⟩
          · exact .inr (by simp [h])
      · rcases List.mem_cons.mp h with rfl | h
        · exact .inr (by simp)
        · rcases mem_memWrite h with h | h
          · exact .inl h
          · exact .inr (by simp [h])

/-- A write inside the address space keeps the canonical form. -/
theorem memWrite_wf {a : Nat} (ha : a < Config.memSize) (v : Byte) : ∀ {m : Memory}, MemWF m → MemWF (memWrite m a v)
  | [], h => by
    unfold memWrite
    split
    · exact h
    · next e => exact ⟨by simp, by simpa using ⟨ha, e⟩⟩
  | (c, w) :: t, h => by
    obtain ⟨ht, hlt⟩ := h.tail
    have ih := memWrite_wf ha v ht
    refine ⟨?_, ?_⟩
    · unfold memWrite
      split
      · next hac =>
        split
        · exact h.1
        · refine List.pairwise_cons.mpr ⟨fun d hd => ?_, h.1⟩
          rcases List.mem_cons.mp hd with rfl | hd
          · exact hac
          · exact Nat.lt_trans hac (hlt d hd)
      · split
        · next hac =>
          subst hac
          split
          · exact ht.1
          · exact List.pairwise_cons.mpr ⟨hlt, ht.1⟩
        · next hge hne =>
          refine List.pairwise_cons.mpr ⟨fun d hd => ?_, ih.1⟩
          rcases mem_memWrite hd with ⟨rfl, -⟩ | hd
          · show c < a
            omega
          · exact hlt d hd
    · intro d hd
      rcases mem_memWrite hd with ⟨rfl, e⟩ | hd
      · exact ⟨ha, e⟩
      · exact h.2 d hd

/-- Writing bytes leaves every address outside them alone. -/
theorem memRead_memWriteList_outside {b : Nat} : ∀ (bs : List Byte) (m : Memory) (a : Nat),
    (b < a ∨ a + bs.length ≤ b) → memRead (memWriteList m a bs) b = memRead m b
  | [], _, _, _ => rfl
  | v :: bs, m, a, h => by
    have hlen : (v :: bs).length = bs.length + 1 := rfl
    rw [memWriteList, memRead_memWriteList_outside bs _ (a + 1) (by omega), memRead_memWrite_other (by omega)]

/-- Writing bytes inside the address space keeps the canonical form. -/
theorem memWriteList_wf : ∀ (bs : List Byte) {m : Memory} {a : Nat},
    a + bs.length ≤ Config.memSize → MemWF m → MemWF (memWriteList m a bs)
  | [], _, _, _, h => h
  | v :: bs, m, a, hlen, h => by
    have : (v :: bs).length = bs.length + 1 := rfl
    rw [memWriteList]
    exact memWriteList_wf bs (by omega) (memWrite_wf (by omega) v h)

/-- Each byte written reads back (44_index_memory.md R203, R204). -/
theorem memRead_memWriteList : ∀ (bs : List Byte) {m : Memory} {a : Nat} {k : Nat} (hk : k < bs.length),
    a + bs.length ≤ Config.memSize → MemWF m → memRead (memWriteList m a bs) (a + k) = bs[k]
  | v :: bs, m, a, 0, _, hlen, h => by
    rw [memWriteList, memRead_memWriteList_outside bs _ (a + 1) (by omega)]
    exact memRead_memWrite_same a v h
  | v :: bs, m, a, k + 1, hk, hlen, h => by
    have hl : (v :: bs).length = bs.length + 1 := rfl
    have ih := memRead_memWriteList bs (m := memWrite m a v) (a := a + 1) (k := k) (by omega) (by omega) (memWrite_wf (by omega) v h)
    rw [memWriteList, show a + (k + 1) = a + 1 + k by omega, ih]
    rfl

@[simp] theorem memReadList_length (m : Memory) : ∀ (n a : Nat), (memReadList m a n).length = n
  | 0, _ => rfl
  | n + 1, a => by simp [memReadList, memReadList_length m n (a + 1)]

/-- The k-th byte of a run of reads. -/
theorem memReadList_getElem (m : Memory) : ∀ (n a k : Nat) (hk : k < (memReadList m a n).length), (memReadList m a n)[k] = memRead m (a + k)
  | n + 1, a, 0, _ => rfl
  | n + 1, a, k + 1, hk => by
    have := memReadList_getElem m n (a + 1) k (by simpa [memReadList] using hk)
    simp only [memReadList, List.getElem_cons_succ, this]
    congr 1
    omega
  | 0, _, _, hk => by simp [memReadList] at hk

end Sys2Proof.Machine
end

