-- ==== Sys2Proof/Laws/State.lean ====
section
/-! SUPPORT. One lemma per field per update of the state, each true by `rfl`, so that no proof unfolds a record update; and the same for the
register and key reads. -/

namespace Sys2Proof.Machine

@[simp] theorem setReg_mem (s : State) (x : Nibble) (b : Byte) : (s.setReg x b).mem = s.mem := rfl
@[simp] theorem setReg_v (s : State) (x : Nibble) (b : Byte) : (s.setReg x b).v = s.v.set x.toNat b x.isLt := rfl
@[simp] theorem setReg_i (s : State) (x : Nibble) (b : Byte) : (s.setReg x b).i = s.i := rfl
@[simp] theorem setReg_pc (s : State) (x : Nibble) (b : Byte) : (s.setReg x b).pc = s.pc := rfl
@[simp] theorem setReg_stack (s : State) (x : Nibble) (b : Byte) : (s.setReg x b).stack = s.stack := rfl
@[simp] theorem setReg_sp (s : State) (x : Nibble) (b : Byte) : (s.setReg x b).sp = s.sp := rfl
@[simp] theorem setReg_dt (s : State) (x : Nibble) (b : Byte) : (s.setReg x b).dt = s.dt := rfl
@[simp] theorem setReg_st (s : State) (x : Nibble) (b : Byte) : (s.setReg x b).st = s.st := rfl
@[simp] theorem setReg_key (s : State) (x : Nibble) (b : Byte) : (s.setReg x b).key = s.key := rfl
@[simp] theorem setReg_disp (s : State) (x : Nibble) (b : Byte) : (s.setReg x b).disp = s.disp := rfl
@[simp] theorem setReg_q (s : State) (x : Nibble) (b : Byte) : (s.setReg x b).q = s.q := rfl
@[simp] theorem setReg_p (s : State) (x : Nibble) (b : Byte) : (s.setReg x b).p = s.p := rfl
@[simp] theorem setReg_fault (s : State) (x : Nibble) (b : Byte) : (s.setReg x b).fault = s.fault := rfl
@[simp] theorem setReg_keyDown (s : State) (x : Nibble) (b : Byte) (j : Nibble) : (s.setReg x b).keyDown j = s.keyDown j := rfl

@[simp] theorem setPc_mem (s : State) (a : Word) : (s.setPc a).mem = s.mem := rfl
@[simp] theorem setPc_v (s : State) (a : Word) : (s.setPc a).v = s.v := rfl
@[simp] theorem setPc_i (s : State) (a : Word) : (s.setPc a).i = s.i := rfl
@[simp] theorem setPc_pc (s : State) (a : Word) : (s.setPc a).pc = a := rfl
@[simp] theorem setPc_stack (s : State) (a : Word) : (s.setPc a).stack = s.stack := rfl
@[simp] theorem setPc_sp (s : State) (a : Word) : (s.setPc a).sp = s.sp := rfl
@[simp] theorem setPc_dt (s : State) (a : Word) : (s.setPc a).dt = s.dt := rfl
@[simp] theorem setPc_st (s : State) (a : Word) : (s.setPc a).st = s.st := rfl
@[simp] theorem setPc_key (s : State) (a : Word) : (s.setPc a).key = s.key := rfl
@[simp] theorem setPc_disp (s : State) (a : Word) : (s.setPc a).disp = s.disp := rfl
@[simp] theorem setPc_q (s : State) (a : Word) : (s.setPc a).q = s.q := rfl
@[simp] theorem setPc_p (s : State) (a : Word) : (s.setPc a).p = s.p := rfl
@[simp] theorem setPc_fault (s : State) (a : Word) : (s.setPc a).fault = s.fault := rfl
@[simp] theorem setPc_reg (s : State) (a : Word) (j : Nibble) : (s.setPc a).reg j = s.reg j := rfl
@[simp] theorem setPc_keyDown (s : State) (a : Word) (j : Nibble) : (s.setPc a).keyDown j = s.keyDown j := rfl

@[simp] theorem setI_mem (s : State) (a : Word) : (s.setI a).mem = s.mem := rfl
@[simp] theorem setI_v (s : State) (a : Word) : (s.setI a).v = s.v := rfl
@[simp] theorem setI_i (s : State) (a : Word) : (s.setI a).i = a := rfl
@[simp] theorem setI_pc (s : State) (a : Word) : (s.setI a).pc = s.pc := rfl
@[simp] theorem setI_stack (s : State) (a : Word) : (s.setI a).stack = s.stack := rfl
@[simp] theorem setI_sp (s : State) (a : Word) : (s.setI a).sp = s.sp := rfl
@[simp] theorem setI_dt (s : State) (a : Word) : (s.setI a).dt = s.dt := rfl
@[simp] theorem setI_st (s : State) (a : Word) : (s.setI a).st = s.st := rfl
@[simp] theorem setI_key (s : State) (a : Word) : (s.setI a).key = s.key := rfl
@[simp] theorem setI_disp (s : State) (a : Word) : (s.setI a).disp = s.disp := rfl
@[simp] theorem setI_q (s : State) (a : Word) : (s.setI a).q = s.q := rfl
@[simp] theorem setI_p (s : State) (a : Word) : (s.setI a).p = s.p := rfl
@[simp] theorem setI_fault (s : State) (a : Word) : (s.setI a).fault = s.fault := rfl
@[simp] theorem setI_reg (s : State) (a : Word) (j : Nibble) : (s.setI a).reg j = s.reg j := rfl
@[simp] theorem setI_keyDown (s : State) (a : Word) (j : Nibble) : (s.setI a).keyDown j = s.keyDown j := rfl

@[simp] theorem setDt_mem (s : State) (b : Byte) : (s.setDt b).mem = s.mem := rfl
@[simp] theorem setDt_v (s : State) (b : Byte) : (s.setDt b).v = s.v := rfl
@[simp] theorem setDt_i (s : State) (b : Byte) : (s.setDt b).i = s.i := rfl
@[simp] theorem setDt_pc (s : State) (b : Byte) : (s.setDt b).pc = s.pc := rfl
@[simp] theorem setDt_stack (s : State) (b : Byte) : (s.setDt b).stack = s.stack := rfl
@[simp] theorem setDt_sp (s : State) (b : Byte) : (s.setDt b).sp = s.sp := rfl
@[simp] theorem setDt_dt (s : State) (b : Byte) : (s.setDt b).dt = b := rfl
@[simp] theorem setDt_st (s : State) (b : Byte) : (s.setDt b).st = s.st := rfl
@[simp] theorem setDt_key (s : State) (b : Byte) : (s.setDt b).key = s.key := rfl
@[simp] theorem setDt_disp (s : State) (b : Byte) : (s.setDt b).disp = s.disp := rfl
@[simp] theorem setDt_q (s : State) (b : Byte) : (s.setDt b).q = s.q := rfl
@[simp] theorem setDt_p (s : State) (b : Byte) : (s.setDt b).p = s.p := rfl
@[simp] theorem setDt_fault (s : State) (b : Byte) : (s.setDt b).fault = s.fault := rfl
@[simp] theorem setDt_reg (s : State) (b : Byte) (j : Nibble) : (s.setDt b).reg j = s.reg j := rfl
@[simp] theorem setDt_keyDown (s : State) (b : Byte) (j : Nibble) : (s.setDt b).keyDown j = s.keyDown j := rfl

@[simp] theorem setSt_mem (s : State) (b : Byte) : (s.setSt b).mem = s.mem := rfl
@[simp] theorem setSt_v (s : State) (b : Byte) : (s.setSt b).v = s.v := rfl
@[simp] theorem setSt_i (s : State) (b : Byte) : (s.setSt b).i = s.i := rfl
@[simp] theorem setSt_pc (s : State) (b : Byte) : (s.setSt b).pc = s.pc := rfl
@[simp] theorem setSt_stack (s : State) (b : Byte) : (s.setSt b).stack = s.stack := rfl
@[simp] theorem setSt_sp (s : State) (b : Byte) : (s.setSt b).sp = s.sp := rfl
@[simp] theorem setSt_dt (s : State) (b : Byte) : (s.setSt b).dt = s.dt := rfl
@[simp] theorem setSt_st (s : State) (b : Byte) : (s.setSt b).st = b := rfl
@[simp] theorem setSt_key (s : State) (b : Byte) : (s.setSt b).key = s.key := rfl
@[simp] theorem setSt_disp (s : State) (b : Byte) : (s.setSt b).disp = s.disp := rfl
@[simp] theorem setSt_q (s : State) (b : Byte) : (s.setSt b).q = s.q := rfl
@[simp] theorem setSt_p (s : State) (b : Byte) : (s.setSt b).p = s.p := rfl
@[simp] theorem setSt_fault (s : State) (b : Byte) : (s.setSt b).fault = s.fault := rfl
@[simp] theorem setSt_reg (s : State) (b : Byte) (j : Nibble) : (s.setSt b).reg j = s.reg j := rfl
@[simp] theorem setSt_keyDown (s : State) (b : Byte) (j : Nibble) : (s.setSt b).keyDown j = s.keyDown j := rfl

@[simp] theorem setDisp_mem (s : State) (d : Display) : (s.setDisp d).mem = s.mem := rfl
@[simp] theorem setDisp_v (s : State) (d : Display) : (s.setDisp d).v = s.v := rfl
@[simp] theorem setDisp_i (s : State) (d : Display) : (s.setDisp d).i = s.i := rfl
@[simp] theorem setDisp_pc (s : State) (d : Display) : (s.setDisp d).pc = s.pc := rfl
@[simp] theorem setDisp_stack (s : State) (d : Display) : (s.setDisp d).stack = s.stack := rfl
@[simp] theorem setDisp_sp (s : State) (d : Display) : (s.setDisp d).sp = s.sp := rfl
@[simp] theorem setDisp_dt (s : State) (d : Display) : (s.setDisp d).dt = s.dt := rfl
@[simp] theorem setDisp_st (s : State) (d : Display) : (s.setDisp d).st = s.st := rfl
@[simp] theorem setDisp_key (s : State) (d : Display) : (s.setDisp d).key = s.key := rfl
@[simp] theorem setDisp_disp (s : State) (d : Display) : (s.setDisp d).disp = d := rfl
@[simp] theorem setDisp_q (s : State) (d : Display) : (s.setDisp d).q = s.q := rfl
@[simp] theorem setDisp_p (s : State) (d : Display) : (s.setDisp d).p = s.p := rfl
@[simp] theorem setDisp_fault (s : State) (d : Display) : (s.setDisp d).fault = s.fault := rfl
@[simp] theorem setDisp_reg (s : State) (d : Display) (j : Nibble) : (s.setDisp d).reg j = s.reg j := rfl
@[simp] theorem setDisp_keyDown (s : State) (d : Display) (j : Nibble) : (s.setDisp d).keyDown j = s.keyDown j := rfl

@[simp] theorem storeBytes_mem (s : State) (a : Nat) (bs : List Byte) : (s.storeBytes a bs).mem = memWriteList s.mem a bs := rfl
@[simp] theorem storeBytes_v (s : State) (a : Nat) (bs : List Byte) : (s.storeBytes a bs).v = s.v := rfl
@[simp] theorem storeBytes_i (s : State) (a : Nat) (bs : List Byte) : (s.storeBytes a bs).i = s.i := rfl
@[simp] theorem storeBytes_pc (s : State) (a : Nat) (bs : List Byte) : (s.storeBytes a bs).pc = s.pc := rfl
@[simp] theorem storeBytes_stack (s : State) (a : Nat) (bs : List Byte) : (s.storeBytes a bs).stack = s.stack := rfl
@[simp] theorem storeBytes_sp (s : State) (a : Nat) (bs : List Byte) : (s.storeBytes a bs).sp = s.sp := rfl
@[simp] theorem storeBytes_dt (s : State) (a : Nat) (bs : List Byte) : (s.storeBytes a bs).dt = s.dt := rfl
@[simp] theorem storeBytes_st (s : State) (a : Nat) (bs : List Byte) : (s.storeBytes a bs).st = s.st := rfl
@[simp] theorem storeBytes_key (s : State) (a : Nat) (bs : List Byte) : (s.storeBytes a bs).key = s.key := rfl
@[simp] theorem storeBytes_disp (s : State) (a : Nat) (bs : List Byte) : (s.storeBytes a bs).disp = s.disp := rfl
@[simp] theorem storeBytes_q (s : State) (a : Nat) (bs : List Byte) : (s.storeBytes a bs).q = s.q := rfl
@[simp] theorem storeBytes_p (s : State) (a : Nat) (bs : List Byte) : (s.storeBytes a bs).p = s.p := rfl
@[simp] theorem storeBytes_fault (s : State) (a : Nat) (bs : List Byte) : (s.storeBytes a bs).fault = s.fault := rfl
@[simp] theorem storeBytes_reg (s : State) (a : Nat) (bs : List Byte) (j : Nibble) : (s.storeBytes a bs).reg j = s.reg j := rfl
@[simp] theorem storeBytes_keyDown (s : State) (a : Nat) (bs : List Byte) (j : Nibble) : (s.storeBytes a bs).keyDown j = s.keyDown j := rfl

@[simp] theorem takeFault_mem (s : State) (r : Raise) (w : Option Word) : (s.takeFault r w).mem = s.mem := rfl
@[simp] theorem takeFault_v (s : State) (r : Raise) (w : Option Word) : (s.takeFault r w).v = s.v := rfl
@[simp] theorem takeFault_i (s : State) (r : Raise) (w : Option Word) : (s.takeFault r w).i = s.i := rfl
@[simp] theorem takeFault_pc (s : State) (r : Raise) (w : Option Word) : (s.takeFault r w).pc = s.pc := rfl
@[simp] theorem takeFault_stack (s : State) (r : Raise) (w : Option Word) : (s.takeFault r w).stack = s.stack := rfl
@[simp] theorem takeFault_sp (s : State) (r : Raise) (w : Option Word) : (s.takeFault r w).sp = s.sp := rfl
@[simp] theorem takeFault_dt (s : State) (r : Raise) (w : Option Word) : (s.takeFault r w).dt = s.dt := rfl
@[simp] theorem takeFault_st (s : State) (r : Raise) (w : Option Word) : (s.takeFault r w).st = s.st := rfl
@[simp] theorem takeFault_key (s : State) (r : Raise) (w : Option Word) : (s.takeFault r w).key = s.key := rfl
@[simp] theorem takeFault_disp (s : State) (r : Raise) (w : Option Word) : (s.takeFault r w).disp = s.disp := rfl
@[simp] theorem takeFault_q (s : State) (r : Raise) (w : Option Word) : (s.takeFault r w).q = s.q := rfl
@[simp] theorem takeFault_p (s : State) (r : Raise) (w : Option Word) : (s.takeFault r w).p = s.p := rfl
@[simp] theorem takeFault_fault (s : State) (r : Raise) (w : Option Word) : (s.takeFault r w).fault = some ⟨r.kind, s.pc, w, r.addr⟩ := rfl
@[simp] theorem takeFault_reg (s : State) (r : Raise) (w : Option Word) (j : Nibble) : (s.takeFault r w).reg j = s.reg j := rfl
@[simp] theorem takeFault_keyDown (s : State) (r : Raise) (w : Option Word) (j : Nibble) : (s.takeFault r w).keyDown j = s.keyDown j := rfl

@[simp] theorem prngAdvance_mem (s : State) : s.prngAdvance.mem = s.mem := rfl
@[simp] theorem prngAdvance_v (s : State) : s.prngAdvance.v = s.v := rfl
@[simp] theorem prngAdvance_i (s : State) : s.prngAdvance.i = s.i := rfl
@[simp] theorem prngAdvance_pc (s : State) : s.prngAdvance.pc = s.pc := rfl
@[simp] theorem prngAdvance_stack (s : State) : s.prngAdvance.stack = s.stack := rfl
@[simp] theorem prngAdvance_sp (s : State) : s.prngAdvance.sp = s.sp := rfl
@[simp] theorem prngAdvance_dt (s : State) : s.prngAdvance.dt = s.dt := rfl
@[simp] theorem prngAdvance_st (s : State) : s.prngAdvance.st = s.st := rfl
@[simp] theorem prngAdvance_key (s : State) : s.prngAdvance.key = s.key := rfl
@[simp] theorem prngAdvance_disp (s : State) : s.prngAdvance.disp = s.disp := rfl
@[simp] theorem prngAdvance_q (s : State) : s.prngAdvance.q = s.q := rfl
@[simp] theorem prngAdvance_p (s : State) : s.prngAdvance.p = (Config.prngNext s.p).1 := rfl
@[simp] theorem prngAdvance_fault (s : State) : s.prngAdvance.fault = s.fault := rfl
@[simp] theorem prngAdvance_reg (s : State) (j : Nibble) : s.prngAdvance.reg j = s.reg j := rfl
@[simp] theorem prngAdvance_keyDown (s : State) (j : Nibble) : s.prngAdvance.keyDown j = s.keyDown j := rfl

@[simp] theorem putKey_mem (s : State) (k : Nibble) (b : Bool) : (s.putKey k b).mem = s.mem := rfl
@[simp] theorem putKey_v (s : State) (k : Nibble) (b : Bool) : (s.putKey k b).v = s.v := rfl
@[simp] theorem putKey_i (s : State) (k : Nibble) (b : Bool) : (s.putKey k b).i = s.i := rfl
@[simp] theorem putKey_pc (s : State) (k : Nibble) (b : Bool) : (s.putKey k b).pc = s.pc := rfl
@[simp] theorem putKey_stack (s : State) (k : Nibble) (b : Bool) : (s.putKey k b).stack = s.stack := rfl
@[simp] theorem putKey_sp (s : State) (k : Nibble) (b : Bool) : (s.putKey k b).sp = s.sp := rfl
@[simp] theorem putKey_dt (s : State) (k : Nibble) (b : Bool) : (s.putKey k b).dt = s.dt := rfl
@[simp] theorem putKey_st (s : State) (k : Nibble) (b : Bool) : (s.putKey k b).st = s.st := rfl
@[simp] theorem putKey_key (s : State) (k : Nibble) (b : Bool) : (s.putKey k b).key = s.key.set k.toNat b k.isLt := rfl
@[simp] theorem putKey_disp (s : State) (k : Nibble) (b : Bool) : (s.putKey k b).disp = s.disp := rfl
@[simp] theorem putKey_q (s : State) (k : Nibble) (b : Bool) : (s.putKey k b).q = s.q := rfl
@[simp] theorem putKey_p (s : State) (k : Nibble) (b : Bool) : (s.putKey k b).p = s.p := rfl
@[simp] theorem putKey_fault (s : State) (k : Nibble) (b : Bool) : (s.putKey k b).fault = s.fault := rfl
@[simp] theorem putKey_reg (s : State) (k : Nibble) (b : Bool) (j : Nibble) : (s.putKey k b).reg j = s.reg j := rfl

@[simp] theorem advance_mem (s : State) : s.advance.mem = s.mem := rfl
@[simp] theorem advance_v (s : State) : s.advance.v = s.v := rfl
@[simp] theorem advance_i (s : State) : s.advance.i = s.i := rfl
@[simp] theorem advance_pc (s : State) : s.advance.pc = s.pc + 2#16 := rfl
@[simp] theorem advance_stack (s : State) : s.advance.stack = s.stack := rfl
@[simp] theorem advance_sp (s : State) : s.advance.sp = s.sp := rfl
@[simp] theorem advance_dt (s : State) : s.advance.dt = s.dt := rfl
@[simp] theorem advance_st (s : State) : s.advance.st = s.st := rfl
@[simp] theorem advance_key (s : State) : s.advance.key = s.key := rfl
@[simp] theorem advance_disp (s : State) : s.advance.disp = s.disp := rfl
@[simp] theorem advance_q (s : State) : s.advance.q = s.q := rfl
@[simp] theorem advance_p (s : State) : s.advance.p = s.p := rfl
@[simp] theorem advance_fault (s : State) : s.advance.fault = s.fault := rfl
@[simp] theorem advance_reg (s : State) (j : Nibble) : s.advance.reg j = s.reg j := rfl
@[simp] theorem advance_keyDown (s : State) (j : Nibble) : s.advance.keyDown j = s.keyDown j := rfl

@[simp] theorem skipIf_mem (s : State) (c : Bool) : (s.skipIf c).mem = s.mem := rfl
@[simp] theorem skipIf_v (s : State) (c : Bool) : (s.skipIf c).v = s.v := rfl
@[simp] theorem skipIf_i (s : State) (c : Bool) : (s.skipIf c).i = s.i := rfl
@[simp] theorem skipIf_pc (s : State) (c : Bool) : (s.skipIf c).pc = if c then s.pc + 4#16 else s.pc + 2#16 := rfl
@[simp] theorem skipIf_stack (s : State) (c : Bool) : (s.skipIf c).stack = s.stack := rfl
@[simp] theorem skipIf_sp (s : State) (c : Bool) : (s.skipIf c).sp = s.sp := rfl
@[simp] theorem skipIf_dt (s : State) (c : Bool) : (s.skipIf c).dt = s.dt := rfl
@[simp] theorem skipIf_st (s : State) (c : Bool) : (s.skipIf c).st = s.st := rfl
@[simp] theorem skipIf_key (s : State) (c : Bool) : (s.skipIf c).key = s.key := rfl
@[simp] theorem skipIf_disp (s : State) (c : Bool) : (s.skipIf c).disp = s.disp := rfl
@[simp] theorem skipIf_q (s : State) (c : Bool) : (s.skipIf c).q = s.q := rfl
@[simp] theorem skipIf_p (s : State) (c : Bool) : (s.skipIf c).p = s.p := rfl
@[simp] theorem skipIf_fault (s : State) (c : Bool) : (s.skipIf c).fault = s.fault := rfl
@[simp] theorem skipIf_reg (s : State) (c : Bool) (j : Nibble) : (s.skipIf c).reg j = s.reg j := rfl
@[simp] theorem skipIf_keyDown (s : State) (c : Bool) (j : Nibble) : (s.skipIf c).keyDown j = s.keyDown j := rfl

@[simp] theorem loadRegs_mem (s : State) (a : Nat) (x : Nibble) : (loadRegs s a x).mem = s.mem := rfl
@[simp] theorem loadRegs_v (s : State) (a : Nat) (x : Nibble) : (loadRegs s a x).v = s.v.mapIdx (fun k old => if k ≤ x.toNat then memRead s.mem (a + k) else old) := rfl
@[simp] theorem loadRegs_i (s : State) (a : Nat) (x : Nibble) : (loadRegs s a x).i = s.i := rfl
@[simp] theorem loadRegs_pc (s : State) (a : Nat) (x : Nibble) : (loadRegs s a x).pc = s.pc := rfl
@[simp] theorem loadRegs_stack (s : State) (a : Nat) (x : Nibble) : (loadRegs s a x).stack = s.stack := rfl
@[simp] theorem loadRegs_sp (s : State) (a : Nat) (x : Nibble) : (loadRegs s a x).sp = s.sp := rfl
@[simp] theorem loadRegs_dt (s : State) (a : Nat) (x : Nibble) : (loadRegs s a x).dt = s.dt := rfl
@[simp] theorem loadRegs_st (s : State) (a : Nat) (x : Nibble) : (loadRegs s a x).st = s.st := rfl
@[simp] theorem loadRegs_key (s : State) (a : Nat) (x : Nibble) : (loadRegs s a x).key = s.key := rfl
@[simp] theorem loadRegs_disp (s : State) (a : Nat) (x : Nibble) : (loadRegs s a x).disp = s.disp := rfl
@[simp] theorem loadRegs_q (s : State) (a : Nat) (x : Nibble) : (loadRegs s a x).q = s.q := rfl
@[simp] theorem loadRegs_p (s : State) (a : Nat) (x : Nibble) : (loadRegs s a x).p = s.p := rfl
@[simp] theorem loadRegs_fault (s : State) (a : Nat) (x : Nibble) : (loadRegs s a x).fault = s.fault := rfl
@[simp] theorem loadRegs_keyDown (s : State) (a : Nat) (x j : Nibble) : (loadRegs s a x).keyDown j = s.keyDown j := rfl

/-- Reading a register after a write: the written value there, the old value elsewhere (10_state.md R21: none is hardwired). -/
theorem reg_setReg (s : State) (x j : Nibble) (b : Byte) : (s.setReg x b).reg j = if j = x then b else s.reg j := by
  unfold State.reg State.setReg
  rw [Vector.getElem_set]
  by_cases h : j = x
  · simp [h]
  · have h' : ¬ x.toNat = j.toNat := fun e => h (BitVec.eq_of_toNat_eq e.symm)
    simp [h, h']

@[simp] theorem reg_setReg_same (s : State) (x : Nibble) (b : Byte) : (s.setReg x b).reg x = b := by
  simp [reg_setReg]

theorem reg_setReg_other (s : State) {x j : Nibble} (b : Byte) (h : j ≠ x) : (s.setReg x b).reg j = s.reg j := by
  simp [reg_setReg, h]

/-- Reading a key after SetKey wrote one (46_input_timers_random.md R276). -/
theorem keyDown_putKey (s : State) (k j : Nibble) (b : Bool) :
    (s.putKey k b).keyDown j = if j = k then b else s.keyDown j := by
  unfold State.keyDown State.putKey
  rw [Vector.getElem_set]
  by_cases h : j = k
  · simp [h]
  · have h' : ¬ k.toNat = j.toNat := fun e => h (BitVec.eq_of_toNat_eq e.symm)
    simp [h, h']

/-- A loaded register holds its byte of memory, a register above X its old value (44_index_memory.md R205). -/
theorem loadRegs_reg (s : State) (a : Nat) (x j : Nibble) :
    (loadRegs s a x).reg j = if j.toNat ≤ x.toNat then memRead s.mem (a + j.toNat) else s.reg j := by
  unfold State.reg loadRegs
  simp

end Sys2Proof.Machine
end

