-- ==== Sys2Proof/Laws/Ops.lean ====
section
/-! SUPPORT. One lemma per shared operation that says once everything it can do. -/

namespace Sys2Proof.Machine

/-! ## Range checks (20_memory.md R59) -/

/-- CheckRead accepts exactly the ranges inside memory. -/
theorem checkRead_eq_none : ∀ {n a : Nat}, checkRead a n = none ↔ n = 0 ∨ a + n ≤ Config.memSize
  | 0, _ => by simp [checkRead]
  | n + 1, a => by
    unfold checkRead
    split
    · simp
      omega
    · rw [checkRead_eq_none]
      omega

/-- What CheckRead raises: MemoryOutOfRange at the first address at or above 4096. -/
theorem checkRead_eq_some : ∀ {n a : Nat} {r : Raise},
    checkRead a n = some r → r = ⟨.memoryOutOfRange, some (max a Config.memSize)⟩ ∧ Config.memSize < a + n
  | n + 1, a, r, h => by
    unfold checkRead at h
    split at h
    · next hle =>
      cases h
      exact ⟨by rw [Nat.max_eq_left hle], by omega⟩
    · next hlt =>
      obtain ⟨rfl, hn⟩ := checkRead_eq_some h
      exact ⟨by rw [Nat.max_eq_right (by omega), Nat.max_eq_right (by omega)], by omega⟩

/-- CheckWrite accepts exactly the ranges inside memory and above the font. -/
theorem checkWrite_eq_none : ∀ {n a : Nat}, checkWrite a n = none ↔ n = 0 ∨ (Config.fontLen ≤ a ∧ a + n ≤ Config.memSize)
  | 0, _ => by simp [checkWrite]
  | n + 1, a => by
    unfold checkWrite
    split
    · simp
      omega
    · split
      · simp
        omega
      · rw [checkWrite_eq_none]
        omega

/-- What CheckWrite raises: ReadOnlyWrite at its first address when that lies in the font, else MemoryOutOfRange at the first address at
or above 4096. -/
theorem checkWrite_eq_some : ∀ {n a : Nat} {r : Raise}, checkWrite a n = some r →
    (a < Config.fontLen ∧ r = ⟨.readOnlyWrite, some a⟩)
    ∨ (Config.fontLen ≤ a ∧ Config.memSize < a + n ∧ r = ⟨.memoryOutOfRange, some (max a Config.memSize)⟩)
  | n + 1, a, r, h => by
    unfold checkWrite at h
    split at h
    · next hle =>
      cases h
      exact .inr ⟨Nat.le_trans (by decide) hle, by omega, by rw [Nat.max_eq_left hle]⟩
    · split at h
      · next hf =>
        cases h
        exact .inl ⟨hf, rfl⟩
      · next hlt hf =>
        rcases checkWrite_eq_some h with ⟨hf', -⟩ | ⟨h1, h2, rfl⟩
        · omega
        · exact .inr ⟨by omega, by omega, by rw [Nat.max_eq_right (by omega), Nat.max_eq_right (by omega)]⟩

/-! ## Ending an instruction (60_exceptions.md R302) -/

@[simp] theorem runOrFault_ok (i : Instr) (s t : State) : runOrFault i s (.ok t) = .next t := rfl

@[simp] theorem runOrFault_error (i : Instr) (s : State) (r : Raise) : runOrFault i s (.error r) = .next (s.takeFault r (some (encode i))) := rfl

/-- The two ends of an instruction. -/
theorem runOrFault_cases {i : Instr} {s t : State} {r : Except Raise State} (h : runOrFault i s r = .next t) :
    r = .ok t ∨ ∃ e, r = .error e ∧ t = s.takeFault e (some (encode i)) := by
  cases r with
  | ok u => cases h; exact .inl rfl
  | error e => cases h; exact .inr ⟨e, rfl, rfl⟩

/-- The two ends of an instruction that checks a range first. -/
theorem runOrFault_guarded_cases {i : Instr} {s t u : State} {c : Option Raise} (h : runOrFault i s (guarded c u) = .next t) :
    (c = none ∧ t = u) ∨ ∃ r, c = some r ∧ t = s.takeFault r (some (encode i)) := by
  cases c with
  | none => cases h; exact .inl ⟨rfl, rfl⟩
  | some r => cases h; exact .inr ⟨r, rfl, rfl⟩

@[simp] theorem guarded_none (t : State) : guarded none t = .ok t := rfl

@[simp] theorem guarded_some (r : Raise) (t : State) : guarded (some r) t = .error r := rfl

/-! ## The return stack (10_state.md R25) -/

/-- Push below the capacity. -/
theorem push_ok {s : State} (h : s.sp.val < Config.stackCap) (a : Word) :
    s.push a = .ok { s with stack := s.stack.set s.sp.val a h, sp := ⟨s.sp.val + 1, Nat.succ_lt_succ h⟩ } := by
  simp [State.push, h]

/-- Push at the capacity. -/
theorem push_full {s : State} (h : s.sp.val = Config.stackCap) (a : Word) : s.push a = .error ⟨.stackOverflow, none⟩ := by
  simp [State.push, h]

/-- Pop of a stack in use: the top entry, and only SP changed. -/
theorem pop_ok {s : State} (h : s.sp.val ≠ 0) :
    s.pop = .ok (s.stack[s.sp.val - 1]'(by have := s.sp.isLt; omega), { s with sp := ⟨s.sp.val - 1, by have := s.sp.isLt; omega⟩ }) := by
  simp [State.pop, h]

/-- Pop of an empty stack. -/
theorem pop_empty {s : State} (h : s.sp.val = 0) : s.pop = .error ⟨.stackUnderflow, none⟩ := by
  simp [State.pop, h]

/-- What SYS comes to (41_control_flow.md R124): one of the two policies, with its effect. -/
theorem sysPolicy_cases {i : Instr} {s t u : State} {r : Raise}
    (h : runOrFault i s (match Config.sysPolicy with
      | .decodeFailure => .error r
      | .nop => .ok u) = .next t) :
    (Config.sysPolicy = .decodeFailure ∧ t = s.takeFault r (some (encode i))) ∨ (Config.sysPolicy = .nop ∧ t = u) := by
  cases hp : Config.sysPolicy with
  | decodeFailure =>
    rw [hp] at h
    cases h
    exact .inl ⟨rfl, rfl⟩
  | nop =>
    rw [hp] at h
    cases h
    exact .inr ⟨rfl, rfl⟩

/-- What CALL comes to (41_control_flow.md R121). -/
theorem execCall_cases {nnn : Addr12} {a : Word} {s t : State}
    (h : runOrFault (.call nnn) s ((s.push (s.pc + 2#16)).map (fun t => t.setPc a)) = .next t) :
    (∃ hs : s.sp.val < Config.stackCap,
      t = ({ s with stack := s.stack.set s.sp.val (s.pc + 2#16) hs, sp := ⟨s.sp.val + 1, Nat.succ_lt_succ hs⟩ } : State).setPc a)
    ∨ (s.sp.val = Config.stackCap ∧ t = s.takeFault ⟨.stackOverflow, none⟩ (some (encode (.call nnn)))) := by
  by_cases hs : s.sp.val < Config.stackCap
  · rw [push_ok hs] at h
    cases h
    exact .inl ⟨hs, rfl⟩
  · have hs' : s.sp.val = Config.stackCap := Nat.le_antisymm (Nat.le_of_lt_succ s.sp.isLt) (Nat.le_of_not_lt hs)
    rw [push_full hs'] at h
    cases h
    exact .inr ⟨hs', rfl⟩

/-- What RET comes to (R120). -/
theorem execRet_cases {s t : State} (h : runOrFault .ret s (s.pop.map (fun r => r.2.setPc r.1)) = .next t) :
    (∃ k : Fin 16, s.sp.val = k.val + 1 ∧ t = ({ s with sp := ⟨k.val, by have := k.isLt; omega⟩ } : State).setPc (s.stack.get k))
    ∨ (s.sp.val = 0 ∧ t = s.takeFault ⟨.stackUnderflow, none⟩ (some (encode .ret))) := by
  by_cases hs : s.sp.val = 0
  · rw [pop_empty hs] at h
    cases h
    exact .inr ⟨hs, rfl⟩
  · rw [pop_ok hs] at h
    cases h
    have := s.sp.isLt
    exact .inl ⟨⟨s.sp.val - 1, by omega⟩, by show s.sp.val = s.sp.val - 1 + 1; omega, rfl⟩

/-! ## WriteRF (40_cycle.md R109) -/

/-- With flag_order = flag_last, WriteRF is the pseudocode's first branch. -/
theorem writeRF_flagLast (h : Config.flagOrder = .flagLast) (s : State) (x : Nibble) (res flag : Byte) :
    s.writeRF x res flag = (s.setReg x res).setReg regF flag := by
  unfold State.writeRF
  split
  · next hx => subst hx; simp [lastWritten, h, State.setReg]
  · rfl

/-- With flag_order = result_last, WriteRF is the pseudocode's second branch. -/
theorem writeRF_resultLast (h : Config.flagOrder = .resultLast) (s : State) (x : Nibble) (res flag : Byte) :
    s.writeRF x res flag = (s.setReg regF flag).setReg x res := by
  unfold State.writeRF
  split
  · next hx => subst hx; simp [lastWritten, h, State.setReg]
  · next hx =>
    have hne : x.toNat ≠ regF.toNat := fun e => hx (BitVec.eq_of_toNat_eq e)
    have := Vector.set_comm (xs := s.v) res flag (hi := x.isLt) (hj := regF.isLt) hne
    simp only [State.setReg]
    rw [this]

/-! WriteRF changes registers alone. -/

@[simp] theorem writeRF_mem (s : State) (x : Nibble) (res flag : Byte) : (s.writeRF x res flag).mem = s.mem := by
  unfold State.writeRF; split <;> rfl
@[simp] theorem writeRF_i (s : State) (x : Nibble) (res flag : Byte) : (s.writeRF x res flag).i = s.i := by
  unfold State.writeRF; split <;> rfl
@[simp] theorem writeRF_pc (s : State) (x : Nibble) (res flag : Byte) : (s.writeRF x res flag).pc = s.pc := by
  unfold State.writeRF; split <;> rfl
@[simp] theorem writeRF_stack (s : State) (x : Nibble) (res flag : Byte) : (s.writeRF x res flag).stack = s.stack := by
  unfold State.writeRF; split <;> rfl
@[simp] theorem writeRF_sp (s : State) (x : Nibble) (res flag : Byte) : (s.writeRF x res flag).sp = s.sp := by
  unfold State.writeRF; split <;> rfl
@[simp] theorem writeRF_dt (s : State) (x : Nibble) (res flag : Byte) : (s.writeRF x res flag).dt = s.dt := by
  unfold State.writeRF; split <;> rfl
@[simp] theorem writeRF_st (s : State) (x : Nibble) (res flag : Byte) : (s.writeRF x res flag).st = s.st := by
  unfold State.writeRF; split <;> rfl
@[simp] theorem writeRF_key (s : State) (x : Nibble) (res flag : Byte) : (s.writeRF x res flag).key = s.key := by
  unfold State.writeRF; split <;> rfl
@[simp] theorem writeRF_disp (s : State) (x : Nibble) (res flag : Byte) : (s.writeRF x res flag).disp = s.disp := by
  unfold State.writeRF; split <;> rfl
@[simp] theorem writeRF_q (s : State) (x : Nibble) (res flag : Byte) : (s.writeRF x res flag).q = s.q := by
  unfold State.writeRF; split <;> rfl
@[simp] theorem writeRF_p (s : State) (x : Nibble) (res flag : Byte) : (s.writeRF x res flag).p = s.p := by
  unfold State.writeRF; split <;> rfl
@[simp] theorem writeRF_fault (s : State) (x : Nibble) (res flag : Byte) : (s.writeRF x res flag).fault = s.fault := by
  unfold State.writeRF; split <;> rfl

/-- Every register after WriteRF. -/
theorem writeRF_reg (s : State) (x j : Nibble) (res flag : Byte) :
    (s.writeRF x res flag).reg j =
      if j = regF then (if x = regF then lastWritten res flag else flag)
      else if j = x then res else s.reg j := by
  unfold State.writeRF
  split
  · next hx =>
    subst hx
    rw [reg_setReg]
    by_cases hj : j = regF <;> simp [hj]
  · next hx => rw [reg_setReg, reg_setReg]

end Sys2Proof.Machine
end

