-- ==== Sys2Proof/Laws/Step.lean ====
section
/-! SUPPORT. What a step can do, said once (40_cycle.md R100). -/

namespace Sys2Proof.Machine

/-- With the latch clear and the fetch inside memory, the front is the decoding of the fetched word. -/
theorem front_running {s : State} (hf : s.fault = none) (hp : s.pc.toNat + 1 < Config.memSize) :
    s.front = (match decode s.fetchWord with
      | .ok i => .runs i
      | .error _ => .ends (s.takeFault ⟨.decodeFailure, none⟩ (some s.fetchWord))) := by
  have hc : checkRead s.pc.toNat 2 = none := checkRead_eq_none.mpr (.inr (by omega))
  cases hd : decode s.fetchWord <;> simp [State.front, hf, hc, hd]

/-- A front that runs an instruction: the latch is clear, the fetch inside memory, and the word decodes to it. -/
theorem front_runs {s : State} {i : Instr} (h : s.front = .runs i) :
    s.fault = none ∧ s.pc.toNat + 1 < Config.memSize ∧ decode s.fetchWord = .ok i := by
  unfold State.front at h
  split at h
  · cases h
  · next hn =>
    split at h
    · cases h
    · next hc =>
      rw [checkRead_eq_none] at hc
      split at h
      · next hd => cases h; exact ⟨hn, by omega, hd⟩
      · cases h

/-- A front that ends the Step: the latch was set and nothing changes, or the fetch raised, or the decode did. -/
theorem front_ends {s t : State} (h : s.front = .ends t) :
    (s.fault ≠ none ∧ t = s)
    ∨ (s.fault = none ∧ Config.memSize ≤ s.pc.toNat + 1
      ∧ t = s.takeFault ⟨.memoryOutOfRange, some (max s.pc.toNat Config.memSize)⟩ none)
    ∨ (s.fault = none ∧ s.pc.toNat + 1 < Config.memSize ∧ (∃ e, decode s.fetchWord = .error e)
      ∧ t = s.takeFault ⟨.decodeFailure, none⟩ (some s.fetchWord)) := by
  unfold State.front at h
  split at h
  · next r hr =>
    cases h
    exact .inl ⟨by simp [hr], rfl⟩
  · next hn =>
    split at h
    · next hc =>
      cases h
      obtain ⟨rfl, hlt⟩ := checkRead_eq_some hc
      exact .inr (.inl ⟨hn, by omega, rfl⟩)
    · next hc =>
      rw [checkRead_eq_none] at hc
      split at h
      · cases h
      · next hd =>
        cases h
        exact .inr (.inr ⟨hn, by omega, ⟨_, hd⟩, rfl⟩)

/-- A step: the front ends it, or it is the execution of the front's instruction. -/
theorem step_cases {s t : State} (h : step s = .next t) : s.front = .ends t ∨ ∃ i, s.front = .runs i ∧ exec i s = .next t := by
  unfold step at h
  split at h
  · next u hu =>
    cases h
    exact .inl hu
  · next i hi => exact .inr ⟨i, hi, h⟩

end Sys2Proof.Machine
end

