-- ==== Sys2Proof/Laws/Exec.lean ====
section
/-! SUPPORT. What the execution of an instruction can do to the latch and to memory, said once over all instructions, and the operands of
the transfers. -/

namespace Sys2Proof.Machine

/-- What an instruction does to the latch: nothing, or it raises a fault whose record holds the instruction's word, and an address exactly
for the two memory faults (60_exceptions.md R301). -/
theorem exec_latch_cases {i : Instr} {s t : State} (h : exec i s = .next t) :
   t.fault = s.fault ∨ ∃ r, t = s.takeFault r (some (encode i)) ∧ (r.addr.isSome = true ↔ r.kind = .memoryOutOfRange ∨ r.kind = .readOnlyWrite) := by
  cases i with
  | ret =>
    rcases execRet_cases h with ⟨k, -, rfl⟩ | ⟨-, rfl⟩
    · exact .inl rfl
    · exact .inr ⟨_, rfl, by simp⟩
  | call nnn =>
    rcases execCall_cases h with ⟨k, rfl⟩ | ⟨-, rfl⟩
    · exact .inl rfl
    · exact .inr ⟨_, rfl, by simp⟩
  | sys nnn =>
    rcases sysPolicy_cases h with ⟨-, rfl⟩ | ⟨-, rfl⟩
    · exact .inr ⟨_, rfl, by simp⟩
    · exact .inl rfl
  | drw x y n =>
    rcases runOrFault_guarded_cases h with ⟨-, rfl⟩ | ⟨r, hc, rfl⟩
    · exact .inl rfl
    · obtain ⟨rfl, -⟩ := checkRead_eq_some hc; exact .inr ⟨_, rfl, by simp⟩
  | ldVxMem x =>
    rcases runOrFault_guarded_cases h with ⟨-, rfl⟩ | ⟨r, hc, rfl⟩
    · exact .inl rfl
    · obtain ⟨rfl, -⟩ := checkRead_eq_some hc; exact .inr ⟨_, rfl, by simp⟩
  | ldMemVx x =>
    rcases runOrFault_guarded_cases h with ⟨-, rfl⟩ | ⟨r, hc, rfl⟩
    · exact .inl rfl
    · rcases checkWrite_eq_some hc with ⟨-, rfl⟩ | ⟨-, -, rfl⟩ <;> exact .inr ⟨_, rfl, by simp⟩
  | ldB x =>
    rcases runOrFault_guarded_cases h with ⟨-, rfl⟩ | ⟨r, hc, rfl⟩
    · exact .inl rfl
    · rcases checkWrite_eq_some hc with ⟨-, rfl⟩ | ⟨-, -, rfl⟩ <;> exact .inr ⟨_, rfl, by simp⟩
  | ldVxK x => cases h; exact .inr ⟨⟨.unimplementedOpcode, none⟩, rfl, by simp⟩
  | addReg x y | sub x y | shr x y | subn x y | shl x y => cases h; left; simp
  | _ => cases h; exact .inl rfl

/-- What an instruction does to memory: nothing, or it is FX33 or FX55 and stores its bytes after its check passed (20_memory.md R58). -/
theorem exec_mem_cases {i : Instr} {s t : State} (h : exec i s = .next t) : t.mem = s.mem
   ∨ (∃ x, i = .ldB x ∧ checkWrite s.i.toNat 3 = none ∧ t.mem = memWriteList s.mem s.i.toNat (bcdDigits (s.reg x)))
   ∨ (∃ x, i = .ldMemVx x ∧ checkWrite s.i.toNat (x.toNat+1) = none ∧ t.mem = memWriteList s.mem s.i.toNat (regBlock s x)) := by
  cases i with
  | ret => rcases execRet_cases h with ⟨k, -, rfl⟩ | ⟨-, rfl⟩ <;> exact .inl rfl
  | call nnn => rcases execCall_cases h with ⟨k, rfl⟩ | ⟨-, rfl⟩ <;> exact .inl rfl
  | sys nnn => rcases sysPolicy_cases h with ⟨-, rfl⟩ | ⟨-, rfl⟩ <;> exact .inl rfl
  | drw x y n => rcases runOrFault_guarded_cases h with ⟨-, rfl⟩ | ⟨r, hc, rfl⟩ <;> exact .inl rfl
  | ldVxMem x => rcases runOrFault_guarded_cases h with ⟨-, rfl⟩ | ⟨r, hc, rfl⟩ <;> exact .inl rfl
  | ldMemVx x =>
    rcases runOrFault_guarded_cases h with ⟨hc, rfl⟩ | ⟨r, hc, rfl⟩
    · exact .inr (.inr ⟨x, rfl, hc, rfl⟩)
    · exact .inl rfl
  | ldB x =>
    rcases runOrFault_guarded_cases h with ⟨hc, rfl⟩ | ⟨r, hc, rfl⟩
    · exact .inr (.inl ⟨x, rfl, hc, rfl⟩)
    · exact .inl rfl
  | addReg x y | sub x y | shr x y | subn x y | shl x y => cases h; left; simp
  | _ => cases h; exact .inl rfl

/-- FX55 stores X + 1 bytes (44_index_memory.md R204). -/
theorem regBlock_length (s : State) (x : Nibble) : (regBlock s x).length = x.toNat + 1 := by
  have := x.isLt
  simp [regBlock]; omega

/-- Byte k of them is V[k]. -/
theorem regBlock_getElem (s : State) (x k : Nibble) (h : k.toNat < (regBlock s x).length) : (regBlock s x)[k.toNat] = s.reg k := by
  simp [regBlock, State.reg]

end Sys2Proof.Machine
end

