-- ==== Sys2Proof/Laws/Frames.lean ====
section
/-! SUPPORT. How a frame or a latched fault is shown. -/

namespace Sys2Proof.Safety

open Sys2Proof.Machine

/-- A frame from plain equations of the fields. -/
theorem within_of {f : Touches} {s t : State} (h1 : ∀ j, f.regs j = false → t.reg j = s.reg j) (h2 : f.index = false → t.i = s.i)
  (h3 : f.stack = false → t.sp = s.sp ∧ t.stack = s.stack) (h4 : f.dt = false → t.dt = s.dt) (h5 : f.st = false → t.st = s.st)
  (h6 : t.key = s.key) (h7 : f.display = false → t.disp = s.disp) (h8 : t.q = s.q) (h9 : f.prng = false → t.p = s.p) (h10 : f.latch = false → t.fault = s.fault)
  (h11 : ∀ a, f.store a = false → memRead t.mem a = memRead s.mem a) : Within f s t :=
  ⟨h1, h2, fun h => ⟨(h3 h).1, fun k => by rw [(h3 h).2]⟩, h4, h5, fun k _ => by simp [State.keyDown, h6], fun h r c => by rw [h7 h], fun _ => h8, h9, h10, h11⟩

/-- The fault entry of an instruction latches its kind, PC, word and address, and changes nothing else (60_exceptions.md R302). -/
theorem latches_takeFault (s : State) (i : Instr) (r : Raise) : Latches s (s.takeFault r (some (encode i))) r.kind (some (encode i).toNat) r.addr :=
  ⟨rfl, by apply within_of <;> simp, _, rfl, rfl, rfl, rfl, rfl⟩

end Sys2Proof.Safety
end

