-- ==== Sys2Proof/Laws/PerInstr.lean ====
section
/-! SUPPORT. A law about every instruction, one lemma per constructor: the word `encode` gives lies in the instruction's own row of the
opcode table (30_encoding.md R74). -/

namespace Sys2Proof.Laws.MatchesRow

/-- The encoding, masked by the row's mask, is the row's match. -/
def Statement (i : Instr) : Prop := i.row.matchesWord (encode i) = true

theorem of_and {i : Instr} (h : encode i &&& i.row.mask = i.row.pattern) : Statement i := by
  simpa [Statement, OpcodeRow.matchesWord] using h

theorem cls : Statement .cls := of_and (by decide)
theorem ret : Statement .ret := of_and (by decide)
theorem sys (nnn : Addr12) : Statement (.sys nnn) := of_and (by
  simp only [encode, Instr.row, show 0xF000#16 = encNNN 0xF#4 0#12 by decide, encNNN_and, BitVec.and_zero]
  decide)
theorem jp (nnn : Addr12) : Statement (.jp nnn) := of_and (by
  simp only [encode, Instr.row, show 0xF000#16 = encNNN 0xF#4 0#12 by decide, encNNN_and, BitVec.and_zero]
  decide)
theorem call (nnn : Addr12) : Statement (.call nnn) := of_and (by
  simp only [encode, Instr.row, show 0xF000#16 = encNNN 0xF#4 0#12 by decide, encNNN_and, BitVec.and_zero]
  decide)
theorem seImm (x : Nibble) (nn : Byte) : Statement (.seImm x nn) := of_and (by
  simp only [encode, Instr.row, show 0xF000#16 = encXNN 0xF#4 0#4 0#8 by decide, encXNN_and, BitVec.and_zero]
  decide)
theorem sneImm (x : Nibble) (nn : Byte) : Statement (.sneImm x nn) := of_and (by
  simp only [encode, Instr.row, show 0xF000#16 = encXNN 0xF#4 0#4 0#8 by decide, encXNN_and, BitVec.and_zero]
  decide)
theorem seReg (x : Nibble) (y : Nibble) : Statement (.seReg x y) := of_and (by
  simp only [encode, Instr.row, show 0xF00F#16 = encXYN 0xF#4 0#4 0#4 0xF#4 by decide, encXYN_and, BitVec.and_zero]
  decide)
theorem ldImm (x : Nibble) (nn : Byte) : Statement (.ldImm x nn) := of_and (by
  simp only [encode, Instr.row, show 0xF000#16 = encXNN 0xF#4 0#4 0#8 by decide, encXNN_and, BitVec.and_zero]
  decide)
theorem addImm (x : Nibble) (nn : Byte) : Statement (.addImm x nn) := of_and (by
  simp only [encode, Instr.row, show 0xF000#16 = encXNN 0xF#4 0#4 0#8 by decide, encXNN_and, BitVec.and_zero]
  decide)
theorem ldReg (x : Nibble) (y : Nibble) : Statement (.ldReg x y) := of_and (by
  simp only [encode, Instr.row, show 0xF00F#16 = encXYN 0xF#4 0#4 0#4 0xF#4 by decide, encXYN_and, BitVec.and_zero]
  decide)
theorem orReg (x : Nibble) (y : Nibble) : Statement (.orReg x y) := of_and (by
  simp only [encode, Instr.row, show 0xF00F#16 = encXYN 0xF#4 0#4 0#4 0xF#4 by decide, encXYN_and, BitVec.and_zero]
  decide)
theorem andReg (x : Nibble) (y : Nibble) : Statement (.andReg x y) := of_and (by
  simp only [encode, Instr.row, show 0xF00F#16 = encXYN 0xF#4 0#4 0#4 0xF#4 by decide, encXYN_and, BitVec.and_zero]
  decide)
theorem xorReg (x : Nibble) (y : Nibble) : Statement (.xorReg x y) := of_and (by
  simp only [encode, Instr.row, show 0xF00F#16 = encXYN 0xF#4 0#4 0#4 0xF#4 by decide, encXYN_and, BitVec.and_zero]
  decide)
theorem addReg (x : Nibble) (y : Nibble) : Statement (.addReg x y) := of_and (by
  simp only [encode, Instr.row, show 0xF00F#16 = encXYN 0xF#4 0#4 0#4 0xF#4 by decide, encXYN_and, BitVec.and_zero]
  decide)
theorem sub (x : Nibble) (y : Nibble) : Statement (.sub x y) := of_and (by
  simp only [encode, Instr.row, show 0xF00F#16 = encXYN 0xF#4 0#4 0#4 0xF#4 by decide, encXYN_and, BitVec.and_zero]
  decide)
theorem shr (x : Nibble) (y : Nibble) : Statement (.shr x y) := of_and (by
  simp only [encode, Instr.row, show 0xF00F#16 = encXYN 0xF#4 0#4 0#4 0xF#4 by decide, encXYN_and, BitVec.and_zero]
  decide)
theorem subn (x : Nibble) (y : Nibble) : Statement (.subn x y) := of_and (by
  simp only [encode, Instr.row, show 0xF00F#16 = encXYN 0xF#4 0#4 0#4 0xF#4 by decide, encXYN_and, BitVec.and_zero]
  decide)
theorem shl (x : Nibble) (y : Nibble) : Statement (.shl x y) := of_and (by
  simp only [encode, Instr.row, show 0xF00F#16 = encXYN 0xF#4 0#4 0#4 0xF#4 by decide, encXYN_and, BitVec.and_zero]
  decide)
theorem sneReg (x : Nibble) (y : Nibble) : Statement (.sneReg x y) := of_and (by
  simp only [encode, Instr.row, show 0xF00F#16 = encXYN 0xF#4 0#4 0#4 0xF#4 by decide, encXYN_and, BitVec.and_zero]
  decide)
theorem ldI (nnn : Addr12) : Statement (.ldI nnn) := of_and (by
  simp only [encode, Instr.row, show 0xF000#16 = encNNN 0xF#4 0#12 by decide, encNNN_and, BitVec.and_zero]
  decide)
theorem jpV0 (nnn : Addr12) : Statement (.jpV0 nnn) := of_and (by
  simp only [encode, Instr.row, show 0xF000#16 = encNNN 0xF#4 0#12 by decide, encNNN_and, BitVec.and_zero]
  decide)
theorem rnd (x : Nibble) (nn : Byte) : Statement (.rnd x nn) := of_and (by
  simp only [encode, Instr.row, show 0xF000#16 = encXNN 0xF#4 0#4 0#8 by decide, encXNN_and, BitVec.and_zero]
  decide)
theorem drw (x : Nibble) (y : Nibble) (n : Nibble) : Statement (.drw x y n) := of_and (by
  simp only [encode, Instr.row, show 0xF000#16 = encXYN 0xF#4 0#4 0#4 0#4 by decide, encXYN_and, BitVec.and_zero]
  decide)
theorem skp (x : Nibble) : Statement (.skp x) := of_and (by
  simp only [encode, Instr.row, show 0xF0FF#16 = encXNN 0xF#4 0#4 0xFF#8 by decide, encXNN_and, BitVec.and_zero]
  decide)
theorem sknp (x : Nibble) : Statement (.sknp x) := of_and (by
  simp only [encode, Instr.row, show 0xF0FF#16 = encXNN 0xF#4 0#4 0xFF#8 by decide, encXNN_and, BitVec.and_zero]
  decide)
theorem ldVxDt (x : Nibble) : Statement (.ldVxDt x) := of_and (by
  simp only [encode, Instr.row, show 0xF0FF#16 = encXNN 0xF#4 0#4 0xFF#8 by decide, encXNN_and, BitVec.and_zero]
  decide)
theorem ldVxK (x : Nibble) : Statement (.ldVxK x) := of_and (by
  simp only [encode, Instr.row, show 0xF0FF#16 = encXNN 0xF#4 0#4 0xFF#8 by decide, encXNN_and, BitVec.and_zero]
  decide)
theorem ldDtVx (x : Nibble) : Statement (.ldDtVx x) := of_and (by
  simp only [encode, Instr.row, show 0xF0FF#16 = encXNN 0xF#4 0#4 0xFF#8 by decide, encXNN_and, BitVec.and_zero]
  decide)
theorem ldStVx (x : Nibble) : Statement (.ldStVx x) := of_and (by
  simp only [encode, Instr.row, show 0xF0FF#16 = encXNN 0xF#4 0#4 0xFF#8 by decide, encXNN_and, BitVec.and_zero]
  decide)
theorem addI (x : Nibble) : Statement (.addI x) := of_and (by
  simp only [encode, Instr.row, show 0xF0FF#16 = encXNN 0xF#4 0#4 0xFF#8 by decide, encXNN_and, BitVec.and_zero]
  decide)
theorem ldF (x : Nibble) : Statement (.ldF x) := of_and (by
  simp only [encode, Instr.row, show 0xF0FF#16 = encXNN 0xF#4 0#4 0xFF#8 by decide, encXNN_and, BitVec.and_zero]
  decide)
theorem ldB (x : Nibble) : Statement (.ldB x) := of_and (by
  simp only [encode, Instr.row, show 0xF0FF#16 = encXNN 0xF#4 0#4 0xFF#8 by decide, encXNN_and, BitVec.and_zero]
  decide)
theorem ldMemVx (x : Nibble) : Statement (.ldMemVx x) := of_and (by
  simp only [encode, Instr.row, show 0xF0FF#16 = encXNN 0xF#4 0#4 0xFF#8 by decide, encXNN_and, BitVec.and_zero]
  decide)
theorem ldVxMem (x : Nibble) : Statement (.ldVxMem x) := of_and (by
  simp only [encode, Instr.row, show 0xF0FF#16 = encXNN 0xF#4 0#4 0xFF#8 by decide, encXNN_and, BitVec.and_zero]
  decide)

end Sys2Proof.Laws.MatchesRow
end

