-- ==== Sys2Proof/Laws/Sprites.lean ====
section
/-! SUPPORT. The display and the blitter, one pixel at a time (45_display.md R233). -/

namespace Sys2Proof.Machine

/-- Reading a pixel after one was set. -/
theorem pixel_setPixel (d : Display) (r r' : Fin 32) (c c' : Fin 64) (b : Bool) :
    pixel (setPixel d r c b) r' c' = if r' = r ∧ c' = c then b else pixel d r' c' := by
  unfold pixel setPixel
  by_cases hr : r' = r
  · subst hr
    simp only [Vector.getElem_set_self, Vector.getElem_set, true_and, Fin.ext_iff]
    by_cases hc : c.val = c'.val
    · simp [hc]
    · simp [hc, Ne.symm (hc : c.val ≠ c'.val)]
  · have h : r.val ≠ r'.val := fun e => hr (Fin.ext e.symm)
    simp [Vector.getElem_set_ne, h, hr]

@[simp] theorem pixel_clearDisplay (r : Fin 32) (c : Fin 64) : pixel clearDisplay r c = false := by
  simp [pixel, clearDisplay]

/-- The display after one pixel of the blit: that pixel xor the bit. -/
theorem pixel_blitPixel (acc : Display × Bool) (y x : Nat) (bit : Bool) (r : Fin 32) (c : Fin 64) :
    pixel (blitPixel acc y x bit).1 r c = (pixel acc.1 r c ^^ (decide (r = wrapRow y ∧ c = wrapCol x) && bit)) := by
  unfold blitPixel
  simp only [pixel_setPixel]
  split
  · next h => simp [h.1, h.2]
  · next h => simp [h]

/-- The collision bit after one pixel of the blit: a lit pixel under a set bit. -/
theorem blitPixel_hit (acc : Display × Bool) (y x : Nat) (bit : Bool) :
    (blitPixel acc y x bit).2 = (acc.2 || (bit && pixel acc.1 (wrapRow y) (wrapCol x))) := rfl

/-- The column offset of a pixel's column from x, with wraparound. -/
theorem wrapCol_eq {x k : Nat} (hk : k < 64) (c : Fin 64) : c = wrapCol (x + k) ↔ (c.val + 64 - x % 64) % 64 = k := by
  have := c.isLt
  rw [Fin.ext_iff]
  simp only [wrapCol]
  omega

/-- The row offset of a pixel's row from y, with wraparound. -/
theorem wrapRow_eq {y k : Nat} (hk : k < 32) (r : Fin 32) : r = wrapRow (y + k) ↔ (r.val + 32 - y % 32) % 32 = k := by
  have := r.isLt
  rw [Fin.ext_iff]
  simp only [wrapRow]
  omega

/-- The display after `n` columns of one sprite row, from column `k` on: no pixel is visited twice, so a pixel of the row changes by the
sprite's bit over it. -/
theorem pixel_blitCols (y x : Nat) (row : Byte) (r : Fin 32) (c : Fin 64) : ∀ (n k : Nat) (acc : Display × Bool), k + n ≤ 64 →
    pixel (blitCols acc y x row k n).1 r c =
      (pixel acc.1 r c ^^ (decide (r = wrapRow y ∧ k ≤ (c.val + 64 - x % 64) % 64 ∧ (c.val + 64 - x % 64) % 64 < k + n)
        && spriteBit row ((c.val + 64 - x % 64) % 64)))
  | 0, k, acc, _ => by
    have : ¬ (r = wrapRow y ∧ k ≤ (c.val + 64 - x % 64) % 64 ∧ (c.val + 64 - x % 64) % 64 < k + 0) := by omega
    rw [decide_eq_false this]
    simp [blitCols]
  | n + 1, k, acc, h => by
    rw [blitCols, pixel_blitCols y x row r c n (k + 1) _ (by omega), pixel_blitPixel]
    generalize hd : (c.val + 64 - x % 64) % 64 = d
    have hw : c = wrapCol (x + k) ↔ d = k := by rw [wrapCol_eq (by omega), hd]
    rw [Bool.xor_assoc]
    congr 1
    by_cases hr : r = wrapRow y
    · by_cases hk : d = k
      · subst hk
        simp [hr, hw]
      · have e : (k + 1 ≤ d ∧ d < k + 1 + n) ↔ (k ≤ d ∧ d < k + (n + 1)) := by omega
        simp only [e]
        simp [hr, hw, hk]
    · simp [hr]

/-- The collision bit after `n` columns of one sprite row: some visited pixel was lit under a set bit. -/
theorem blitCols_hit (y x : Nat) (row : Byte) : ∀ (n k : Nat) (acc : Display × Bool), k + n ≤ 64 →
    ((blitCols acc y x row k n).2 = true ↔
      acc.2 = true ∨ ∃ j, k ≤ j ∧ j < k + n ∧ spriteBit row j = true ∧ pixel acc.1 (wrapRow y) (wrapCol (x + j)) = true)
  | 0, k, acc, _ => by
    simp only [blitCols]
    constructor
    · exact .inl
    · rintro (h | ⟨j, h1, h2, -⟩)
      · exact h
      · omega
  | n + 1, k, acc, h => by
    have other : ∀ j, k + 1 ≤ j → j < k + 1 + n →
        pixel (blitPixel acc y (x + k) (spriteBit row k)).1 (wrapRow y) (wrapCol (x + j)) = pixel acc.1 (wrapRow y) (wrapCol (x + j)) := by
      intro j h1 h2
      have : ¬ wrapCol (x + j) = wrapCol (x + k) := by
        rw [wrapCol_eq (by omega)]
        simp only [wrapCol]
        omega
      simp [pixel_blitPixel, this]
    rw [blitCols, blitCols_hit y x row n (k + 1) _ (by omega), blitPixel_hit, Bool.or_eq_true, Bool.and_eq_true]
    constructor
    · rintro ((h0 | ⟨hb, hp⟩) | ⟨j, h1, h2, hb, hp⟩)
      · exact .inl h0
      · exact .inr ⟨k, by omega, by omega, hb, hp⟩
      · exact .inr ⟨j, by omega, by omega, hb, by rw [← other j h1 h2]; exact hp⟩
    · rintro (h0 | ⟨j, h1, h2, hb, hp⟩)
      · exact .inl (.inl h0)
      · by_cases hj : j = k
        · subst hj
          exact .inl (.inr ⟨hb, hp⟩)
        · exact .inr ⟨j, by omega, by omega, hb, by rw [other j (by omega) (by omega)]; exact hp⟩

/-- A row of the display no column loop writes is as before. -/
theorem pixel_blitCols_other_row {y x : Nat} {row : Byte} {r : Fin 32} (h : r ≠ wrapRow y) (c : Fin 64) (acc : Display × Bool) :
    pixel (blitCols acc y x row 0 8).1 r c = pixel acc.1 r c := by
  simp [pixel_blitCols, h]

/-- The display after the rows of a sprite of fewer than 32 rows: the pixel's row offset picks the sprite row, its column offset the bit. -/
theorem pixel_blitRows (x : Nat) (r : Fin 32) (c : Fin 64) : ∀ (rows : List Byte) (y : Nat) (acc : Display × Bool), rows.length ≤ 32 →
    pixel (blitRows acc y x rows).1 r c =
      (pixel acc.1 r c ^^ (decide ((c.val + 64 - x % 64) % 64 < 8)
        && spriteBit (rows.getD ((r.val + 32 - y % 32) % 32) 0) ((c.val + 64 - x % 64) % 64)))
  | [], y, acc, _ => by simp [blitRows, spriteBit]
  | row :: rows, y, acc, h => by
    have hlen : rows.length + 1 ≤ 32 := h
    have hr := r.isLt
    rw [blitRows, pixel_blitRows x r c rows (y + 1) _ (by omega), pixel_blitCols _ _ _ _ _ 8 0 _ (by omega)]
    have hw := wrapRow_eq (y := y) (k := 0) (by omega) r
    rw [Nat.add_zero] at hw
    generalize hd : (r.val + 32 - y % 32) % 32 = d at hw ⊢
    rw [Bool.xor_assoc]
    congr 1
    by_cases hd0 : d = 0
    · have e : (r.val + 32 - (y + 1) % 32) % 32 = 31 := by omega
      have hz : rows[31]? = none := List.getElem?_eq_none (by omega)
      simp [hw, hd0, e, hz, spriteBit]
    · obtain ⟨d', rfl⟩ := Nat.exists_eq_succ_of_ne_zero hd0
      have e : (r.val + 32 - (y + 1) % 32) % 32 = d' := by omega
      simp [hw, e]

/-- The collision bit after the rows of a sprite of at most 32 rows: some pixel lit before the draw lies under a set bit. -/
theorem blitRows_hit (x : Nat) : ∀ (rows : List Byte) (y : Nat) (acc : Display × Bool), rows.length ≤ 32 →
    ((blitRows acc y x rows).2 = true ↔
      acc.2 = true ∨ ∃ k row, rows[k]? = some row ∧ ∃ j, j < 8 ∧ spriteBit row j = true
        ∧ pixel acc.1 (wrapRow (y + k)) (wrapCol (x + j)) = true)
  | [], y, acc, _ => by simp [blitRows]
  | row :: rows, y, acc, h => by
    have hlen : rows.length + 1 ≤ 32 := h
    have other : ∀ k b, rows[k]? = some b → ∀ c,
        pixel (blitCols acc y x row 0 8).1 (wrapRow (y + 1 + k)) c = pixel acc.1 (wrapRow (y + 1 + k)) c := by
      intro k b hk c
      have hk' : k < rows.length := by
        rcases Nat.lt_or_ge k rows.length with h' | h'
        · exact h'
        · rw [List.getElem?_eq_none h'] at hk
          cases hk
      apply pixel_blitCols_other_row
      intro e
      have := congrArg Fin.val e
      simp only [wrapRow] at this
      omega
    rw [blitRows, blitRows_hit x rows (y + 1) _ (by omega), blitCols_hit _ _ _ 8 0 _ (by omega)]
    constructor
    · rintro ((h0 | ⟨j, -, hj, hb, hp⟩) | ⟨k, b, hk, j, hj, hb, hp⟩)
      · exact .inl h0
      · exact .inr ⟨0, row, rfl, j, by omega, hb, hp⟩
      · rw [other k b hk] at hp
        exact .inr ⟨k + 1, b, hk, j, hj, hb, by rw [show y + (k + 1) = y + 1 + k by omega]; exact hp⟩
    · rintro (h0 | ⟨k, b, hk, j, hj, hb, hp⟩)
      · exact .inl (.inl h0)
      · cases k with
        | zero =>
          cases hk
          exact .inl (.inr ⟨j, by omega, by omega, hb, hp⟩)
        | succ k =>
          have hk' : rows[k]? = some b := hk
          rw [show y + (k + 1) = y + 1 + k by omega] at hp
          exact .inr ⟨k, b, hk', j, hj, hb, by rw [other k b hk']; exact hp⟩

end Sys2Proof.Machine
end

