-- ==== Sys2Proof/Tests/Slice0.lean ====
section
/-! SUPPORT. Tests of the model against the spec's own encodings and vectors (30_encoding.md R74, 95_test_vectors.md), and a witness for
every statement that has hypotheses. Every expected value is the spec's. -/

namespace Sys2Proof.Tests

open Sys2Proof.Machine Sys2Proof.Safety

/-! ## Helpers -/

/-- The reset state with one instruction word where the next step fetches. -/
def atWord (w : Nat) : State := State.reset.withFetchWord 16 w

/-- The next state of an outcome, or the given one. -/
def nextOr (s : State) : Host.Outcome State Fault Refusal → State
  | .next t => t
  | .fault _ => s
  | .refused _ => s

/-- The state after one step. -/
def after (s : State) : State := nextOr s (step s)

/-- Some registers set. -/
def regs (s : State) (l : List (Nibble × Byte)) : State := l.foldl (fun s c => s.setReg c.1 c.2) s

/-- I set, and bytes put at it. -/
def data (s : State) (i : Nat) (bs : List Byte) : State := (s.setI (BitVec.ofNat 16 i)).storeBytes i bs

/-- PC set, and the word put at it. -/
def atPc (pc w : Nat) : State := (State.reset.setPc (BitVec.ofNat 16 pc)).withFetchWord 16 w

/-- The stack filled: every entry 0x202, `n` in use. -/
def stacked (s : State) (n : Fin 17) : State := { s with stack := Vector.replicate 16 0x202#16, sp := n }

/-- A display with the listed pixels lit. -/
def lit (l : List (Fin 32 × Fin 64)) : Display := l.foldl (fun d p => setPixel d p.1 p.2 true) clearDisplay

/-! ## WellFormed: an ill-formed term for each check, refused -/

theorem test_sys_word_of_cls_is_refused : (Instr.sys 0x0E0).wellFormed = false := by decide
theorem test_sys_word_of_ret_is_refused : (Instr.sys 0x0EE).wellFormed = false := by decide
theorem test_sys_other_word_is_accepted : (Instr.sys 0x123).wellFormed = true := by decide

/-! ## Decoding: one word per constructor, the table's encoding with X = 1010, Y = 0101, N = 0011, NN = 01000010, NNN = 001011110000 -/

theorem test_decode_cls : decode 0b0000000011100000#16 = .ok (.cls) := by decide
theorem test_decode_ret : decode 0b0000000011101110#16 = .ok (.ret) := by decide
theorem test_decode_sys : decode 0b0000001011110000#16 = .ok (.sys 0x2F0) := by decide
theorem test_decode_jp : decode 0b0001001011110000#16 = .ok (.jp 0x2F0) := by decide
theorem test_decode_call : decode 0b0010001011110000#16 = .ok (.call 0x2F0) := by decide
theorem test_decode_seImm : decode 0b0011101001000010#16 = .ok (.seImm 0xA 0x42) := by decide
theorem test_decode_sneImm : decode 0b0100101001000010#16 = .ok (.sneImm 0xA 0x42) := by decide
theorem test_decode_seReg : decode 0b0101101001010000#16 = .ok (.seReg 0xA 0x5) := by decide
theorem test_decode_ldImm : decode 0b0110101001000010#16 = .ok (.ldImm 0xA 0x42) := by decide
theorem test_decode_addImm : decode 0b0111101001000010#16 = .ok (.addImm 0xA 0x42) := by decide
theorem test_decode_ldReg : decode 0b1000101001010000#16 = .ok (.ldReg 0xA 0x5) := by decide
theorem test_decode_orReg : decode 0b1000101001010001#16 = .ok (.orReg 0xA 0x5) := by decide
theorem test_decode_andReg : decode 0b1000101001010010#16 = .ok (.andReg 0xA 0x5) := by decide
theorem test_decode_xorReg : decode 0b1000101001010011#16 = .ok (.xorReg 0xA 0x5) := by decide
theorem test_decode_addReg : decode 0b1000101001010100#16 = .ok (.addReg 0xA 0x5) := by decide
theorem test_decode_sub : decode 0b1000101001010101#16 = .ok (.sub 0xA 0x5) := by decide
theorem test_decode_shr : decode 0b1000101001010110#16 = .ok (.shr 0xA 0x5) := by decide
theorem test_decode_subn : decode 0b1000101001010111#16 = .ok (.subn 0xA 0x5) := by decide
theorem test_decode_shl : decode 0b1000101001011110#16 = .ok (.shl 0xA 0x5) := by decide
theorem test_decode_sneReg : decode 0b1001101001010000#16 = .ok (.sneReg 0xA 0x5) := by decide
theorem test_decode_ldI : decode 0b1010001011110000#16 = .ok (.ldI 0x2F0) := by decide
theorem test_decode_jpV0 : decode 0b1011001011110000#16 = .ok (.jpV0 0x2F0) := by decide
theorem test_decode_rnd : decode 0b1100101001000010#16 = .ok (.rnd 0xA 0x42) := by decide
theorem test_decode_drw : decode 0b1101101001010011#16 = .ok (.drw 0xA 0x5 0x3) := by decide
theorem test_decode_skp : decode 0b1110101010011110#16 = .ok (.skp 0xA) := by decide
theorem test_decode_sknp : decode 0b1110101010100001#16 = .ok (.sknp 0xA) := by decide
theorem test_decode_ldVxDt : decode 0b1111101000000111#16 = .ok (.ldVxDt 0xA) := by decide
theorem test_decode_ldVxK : decode 0b1111101000001010#16 = .ok (.ldVxK 0xA) := by decide
theorem test_decode_ldDtVx : decode 0b1111101000010101#16 = .ok (.ldDtVx 0xA) := by decide
theorem test_decode_ldStVx : decode 0b1111101000011000#16 = .ok (.ldStVx 0xA) := by decide
theorem test_decode_addI : decode 0b1111101000011110#16 = .ok (.addI 0xA) := by decide
theorem test_decode_ldF : decode 0b1111101000101001#16 = .ok (.ldF 0xA) := by decide
theorem test_decode_ldB : decode 0b1111101000110011#16 = .ok (.ldB 0xA) := by decide
theorem test_decode_ldMemVx : decode 0b1111101001010101#16 = .ok (.ldMemVx 0xA) := by decide
theorem test_decode_ldVxMem : decode 0b1111101001100101#16 = .ok (.ldVxMem 0xA) := by decide

/-! SK7, AL35, SK10, IO6, IO17: one word of each illegal class, and too few bytes. -/

theorem test_illegal_5AB1 : decode 0x5AB1#16 = .error .illegal5 := by decide
theorem test_illegal_8018 : decode 0x8018#16 = .error .illegal8 := by decide
theorem test_illegal_801F : decode 0x801F#16 = .error .illegal8 := by decide
theorem test_illegal_9AB1 : decode 0x9AB1#16 = .error .illegal9 := by decide
theorem test_illegal_E4A2 : decode 0xE4A2#16 = .error .illegalE := by decide
theorem test_illegal_F0FF : decode 0xF0FF#16 = .error .illegalF := by decide
theorem test_one_byte_is_truncated : decodeBytes [0x60#8] = .error .truncated := by decide
theorem test_bytes_are_big_endian : decodeBytes [0x60#8, 0x05#8, 0x70#8] = .ok (.ldImm 0 5, [0x70#8]) := by decide
theorem test_table_word : decodeTableWord 16 0xD125 = some (.drw 1 2 5) := by decide

/-! ## Vectors of 95_test_vectors.md, by their ids -/

theorem test_CF1_ret : (fun t => (t.pc, t.sp)) (after (stacked (atPc 0x300 0x00EE) 1)) = (0x202, 0) := by decide
theorem test_CF2_ret_empty : (after (atPc 0x300 0x00EE)).fault = some ⟨.stackUnderflow, 0x300, some 0x00EE, none⟩ := by decide
theorem test_CF3_call : (fun t => (t.stack.get 0, t.sp, t.pc)) (after (atWord 0x2300)) = (0x202, 1, 0x300) := by decide
theorem test_CF4_call_full : (after (stacked (atWord 0x2300) 16)).fault = some ⟨.stackOverflow, 0x200, some 0x2300, none⟩ := by decide
theorem test_CF6_jp : (after (atWord 0x1234)).pc = 0x234 := by decide
theorem test_CF9_jpV0 : (after (regs (atWord 0xB300) [(0, 0x10)])).pc = 0x310 := by decide
theorem test_CF10_jpV0_no_wrap : (after (regs (atWord 0xBFFF) [(0, 0xFF)])).pc = 0x10FE := by decide
theorem test_SK1_seImm : (after (regs (atWord 0x3A42) [(0xA, 0x42)])).pc = 0x204 := by decide
theorem test_SK2_seImm : (after (regs (atWord 0x3A42) [(0xA, 0x41)])).pc = 0x202 := by decide
theorem test_SK3_sneImm : (after (regs (atWord 0x4A42) [(0xA, 0x42)])).pc = 0x202 := by decide
theorem test_SK4_sneImm : (after (regs (atWord 0x4A42) [(0xA, 0x41)])).pc = 0x204 := by decide
theorem test_SK5_seReg : (after (regs (atWord 0x5AB0) [(0xA, 7), (0xB, 7)])).pc = 0x204 := by decide
theorem test_SK6_seReg : (after (regs (atWord 0x5AB0) [(0xA, 7), (0xB, 8)])).pc = 0x202 := by decide
theorem test_SK8_sneReg : (after (regs (atWord 0x9AB0) [(0xA, 7), (0xB, 7)])).pc = 0x202 := by decide
theorem test_SK9_sneReg : (after (regs (atWord 0x9AB0) [(0xA, 7), (0xB, 8)])).pc = 0x204 := by decide
theorem test_AL1_ldImm : (fun t => (t.reg 0xF, t.pc)) (after (regs (atWord 0x6FAB) [])) = (0xAB, 0x202) := by decide
theorem test_AL3_addImm : (fun t => (t.reg 2, t.reg 0xF, t.pc)) (after (regs (atWord 0x72FF) [(2, 1), (0xF, 0x55)])) = (0, 0x55, 0x202) := by decide
theorem test_AL4_addImm_F : (fun t => (t.reg 0xF, t.pc)) (after (regs (atWord 0x7FFF) [(0xF, 1)])) = (0, 0x202) := by decide
theorem test_AL5_ldReg : (fun t => (t.reg 0, t.pc)) (after (regs (atWord 0x8010) [(1, 0x3C)])) = (0x3C, 0x202) := by decide
theorem test_AL6_or : (fun t => (t.reg 0, t.reg 0xF, t.pc)) (after (regs (atWord 0x8011) [(0, 0x0F), (1, 0xF0), (0xF, 0x55)])) = (0xFF, 0x55, 0x202) := by decide
theorem test_AL7_and : (fun t => (t.reg 0xF, t.pc)) (after (regs (atWord 0x8F12) [(0xF, 0xF3), (1, 0x3C)])) = (0x30, 0x202) := by decide
theorem test_AL8_xor : (fun t => (t.reg 5, t.pc)) (after (regs (atWord 0x8553) [(5, 0x99)])) = (0, 0x202) := by decide
theorem test_AL9_AL12_addReg :
    (fun t => (t.reg 0, t.reg 0xF, t.pc)) (after (regs (atWord 0x8014) [(0, 0xC8), (1, 0x64)])) = (0x2C, 1, 0x202)
    ∧ (fun t => (t.reg 0, t.reg 0xF, t.pc)) (after (regs (atWord 0x80F4) [(0, 0x01), (0xF, 0xFF)])) = (0, 1, 0x202) := by decide
theorem test_AL15_sub : (fun t => (t.reg 0, t.reg 0xF, t.pc)) (after (regs (atWord 0x8015) [(0, 0x0A), (1, 0x0F)])) = (0xFB, 0, 0x202) := by decide
theorem test_AL17_sub_equal : (fun t => (t.reg 0, t.reg 0xF, t.pc)) (after (regs (atWord 0x8015) [(0, 0x05), (1, 0x05)])) = (0, 1, 0x202) := by decide
theorem test_AL26_subn : (fun t => (t.reg 0, t.reg 0xF, t.pc)) (after (regs (atWord 0x8017) [(0, 0x0A), (1, 0x0F)])) = (0x05, 1, 0x202) := by decide
theorem test_AL27_subn : (fun t => (t.reg 0, t.reg 0xF, t.pc)) (after (regs (atWord 0x8017) [(0, 0x0F), (1, 0x0A)])) = (0xFB, 0, 0x202) := by decide
theorem test_AL22_shr_vx (h : Config.shiftSource = .vx) : (fun t => (t.reg 0, t.reg 0xF)) (after (regs (atWord 0x8016) [(0, 4), (1, 3)])) = (0x02, 0) := by
  rw [show after (regs (atWord 0x8016) [(0, 4), (1, 3)]) = nextOr (regs (atWord 0x8016) [(0, 4), (1, 3)]) (exec (.shr 0 1) (regs (atWord 0x8016) [(0, 4), (1, 3)])) from rfl]
  simp only [exec, execShr, shiftOperand, h]
  decide
theorem test_AL23_shr_vy (h : Config.shiftSource = .vy) : (fun t => (t.reg 0, t.reg 0xF, t.reg 1)) (after (regs (atWord 0x8016) [(0, 4), (1, 3)])) = (0x01, 1, 3) := by
  rw [show after (regs (atWord 0x8016) [(0, 4), (1, 3)]) = nextOr (regs (atWord 0x8016) [(0, 4), (1, 3)]) (exec (.shr 0 1) (regs (atWord 0x8016) [(0, 4), (1, 3)])) from rfl]
  simp only [exec, execShr, shiftOperand, h]
  decide
theorem test_AL32_shl_vx (h : Config.shiftSource = .vx) : (fun t => (t.reg 0, t.reg 0xF)) (after (regs (atWord 0x801E) [(0, 0x40), (1, 0x81)])) = (0x80, 0) := by
  rw [show after (regs (atWord 0x801E) [(0, 0x40), (1, 0x81)]) = nextOr (regs (atWord 0x801E) [(0, 0x40), (1, 0x81)]) (exec (.shl 0 1) (regs (atWord 0x801E) [(0, 0x40), (1, 0x81)])) from rfl]
  simp only [exec, execShl, shiftOperand, h]
  decide
theorem test_AL33_shl_vy (h : Config.shiftSource = .vy) : (fun t => (t.reg 0, t.reg 0xF)) (after (regs (atWord 0x801E) [(0, 0x40), (1, 0x81)])) = (0x02, 1) := by
  rw [show after (regs (atWord 0x801E) [(0, 0x40), (1, 0x81)]) = nextOr (regs (atWord 0x801E) [(0, 0x40), (1, 0x81)]) (exec (.shl 0 1) (regs (atWord 0x801E) [(0, 0x40), (1, 0x81)])) from rfl]
  simp only [exec, execShl, shiftOperand, h]
  decide
theorem test_AL13_AL14_flag_order : (nextOr State.reset (exec (.addReg 0xF 1) (regs State.reset [(0xF, 0x10), (1, 0xF5)]))).reg 0xF
    = match Config.flagOrder with
      | .flagLast => 0x01
      | .resultLast => 0x05 := by
  show lastWritten _ _ = _
  unfold lastWritten
  cases Config.flagOrder <;> decide
theorem test_CF11_sys (h : Config.sysPolicy = .decodeFailure) :
    (nextOr (atWord 0x0123) (exec (.sys 0x123) (atWord 0x0123))).fault = some ⟨.decodeFailure, 0x200, some 0x0123, none⟩ := by
  simp only [exec, execSys, h]
  decide
theorem test_CF12_sys_nop (h : Config.sysPolicy = .nop) : (nextOr (atWord 0x0123) (exec (.sys 0x123) (atWord 0x0123))).pc = 0x202 := by
  simp only [exec, execSys, h]
  decide
theorem test_IM1_ldI : (after (atWord 0xA2F0)).i = 0x2F0 := by decide
theorem test_IM3_addI : (fun t => (t.i, t.reg 0xF)) (after ((regs (atWord 0xF51E) [(5, 1), (0xF, 0x77)]).setI 0xFFF)) = (0x1000, 0x77) := by decide
theorem test_IM4_addI_wraps : (after ((regs (atWord 0xF51E) [(5, 1)]).setI 0xFFFF)).i = 0 := by decide
theorem test_IM5_ldF : (after (regs (atWord 0xF229) [(2, 7)])).i = 0x23 := by decide
theorem test_IM6_ldF_low_nibble : (after (regs (atWord 0xF229) [(2, 0x1A)])).i = 0x32 := by decide
theorem test_IM8_ldB : memReadList (after ((regs (atWord 0xF033) [(0, 255)]).setI 0x300)).mem 0x300 3 = [2, 5, 5] := by decide
theorem test_IM12_ldB_font : (after ((atWord 0xF033).setI 0x04E)).fault = some ⟨.readOnlyWrite, 0x200, some 0xF033, some 0x4E⟩ := by decide
theorem test_IM16_ldMemVx_quirk : (fun t => (memReadList t.mem 0x300 3, t.i)) (after { (regs (atWord 0xF255) [(0, 1), (1, 2), (2, 3)]).setI 0x300 with q := true }) = ([1, 2, 3], 0x303) := by decide
theorem test_IM18_ldMemVx_range : (after ((atWord 0xFF55).setI 0xFF1)).fault = some ⟨.memoryOutOfRange, 0x200, some 0xFF55, some 0x1000⟩ := by decide
theorem test_IM20_ldVxMem_font (h : Config.FontIsDefault) : (after (atWord 0xF465)).reg 4 = 0xF0 ∧ (after (atWord 0xF465)).reg 1 = 0x90 :=
  ⟨show Config.font 4 = 0xF0 from (h 4 (by decide)).trans (by decide), show Config.font 1 = 0x90 from (h 1 (by decide)).trans (by decide)⟩
theorem test_IM23_ldVxMem_range : (after ((atWord 0xF065).setI 0x1000)).fault = some ⟨.memoryOutOfRange, 0x200, some 0xF065, some 0x1000⟩ := by decide
theorem test_DS1_cls : (after ((atWord 0x00E0).setDisp (lit [(0, 0), (31, 63)]))).disp = clearDisplay := by decide
theorem test_DS2_drw_wraps : (after (data (regs (atWord 0xD012) [(1, 31)]) 0x300 [0x80, 0x81])).disp = lit [(31, 0), (0, 0), (0, 7)] := by decide
theorem test_DS10_drw_at_VF : (fun t => (t.disp, t.reg 0xF)) (after ((data (regs (atWord 0xDF01) [(0xF, 5), (0, 2)]) 0x300 [0x80]).setDisp (lit [(2, 5)]))) = (clearDisplay, 1) := by decide
theorem test_IO1_skp : (after ((regs (atPc 0x220 0xE49E) [(4, 0x0A)]).setKey 0xA true)).pc = 0x224 := by decide
theorem test_IO3_skp_low_nibble : (after ((regs (atPc 0x220 0xE49E) [(4, 0x25)]).setKey 5 true)).pc = 0x224 := by decide
theorem test_IO4_sknp : (after ((regs (atPc 0x220 0xE4A1) [(4, 0x0A)]).setKey 0xA true)).pc = 0x222 := by decide
theorem test_IO5_sknp : (after (regs (atPc 0x220 0xE4A1) [(4, 0x0A)])).pc = 0x224 := by decide
theorem test_IO7_ldVxDt : (fun t => (t.reg 3, t.dt)) (after ((atWord 0xF307).setDt 0x3C)) = (0x3C, 0x3C) := by decide
theorem test_IO8_ldDtVx : (after (regs (atWord 0xF315) [(3, 0x3C)])).dt = 0x3C := by decide
theorem test_IO9_ldStVx : (after (regs (atWord 0xF318) [(3, 0x05)])).st = 0x05 := by decide
theorem test_IO12_rnd (h : Config.prngNext = Config.candidatePrngNext) :
    (after (atWord 0xC0FF)).reg 0 = 0x01 ∧ (after (atWord 0xC0FF)).p = ⟨0, 0, 1, 1⟩ := by
  have e : after (atWord 0xC0FF) = nextOr (atWord 0xC0FF) (exec (.rnd 0 0xFF) (atWord 0xC0FF)) := rfl
  rw [e]
  simp only [exec, execRnd, State.prngAdvance, State.prngByte, h]
  decide
theorem test_IO10_timerTick : (fun t => (t.dt, t.st)) (((atWord 0).setDt 2).timerTick) = (1, 0) := by decide
theorem test_IO16_ldVxK : (after (atPc 0x240 0xF20A)).fault = some ⟨.unimplementedOpcode, 0x240, some 0xF20A, none⟩ := by decide
theorem test_FT1_fetch : (after (State.reset.setPc 0xFFF)).fault = some ⟨.memoryOutOfRange, 0xFFF, none, some 0x1000⟩ := by decide
theorem test_FT2_fetch : (after (State.reset.setPc 0x1000)).fault = some ⟨.memoryOutOfRange, 0x1000, none, some 0x1000⟩ := by decide
theorem test_FT4_latched_step_does_nothing : after (after (atWord 0xF00A)) = after (atWord 0xF00A) := by decide
theorem test_RS1_reset : (fun t => (memReadList t.mem 0x200 5, t.pc)) (nextOr State.reset (resetWith [0x60, 0x05, 0x70, 0x03] false))
    = ([0x60, 0x05, 0x70, 0x03, 0], 0x200) := by decide
theorem test_reset_memory_is_canonical : MemWF State.reset.mem := by decide

/-! ## Witnesses: a state and operands that meet the hypotheses of each statement together, at the boundaries of its clauses -/

theorem witness_DecodeEncodeRoundTrip : (Instr.sys 0xFFF).wellFormed = true := by decide
theorem witness_DecodedWordsEncodeBack : decode 0x8014#16 = .ok (.addReg 0 1) := by decide
theorem witness_OpcodeRowsOverlapOnlyAtSys : Instr.cls.row ∈ tableRows ∧ (Instr.sys 0).row ∈ tableRows ∧ Instr.cls.row ≠ (Instr.sys 0).row
    ∧ Instr.cls.row.matchesWord 0x00E0#16 = true ∧ (Instr.sys 0).row.matchesWord 0x00E0#16 = true := by decide
theorem witness_StepRunsDecodedInstruction : (atPc 0xFFE 0x6007).fault = none ∧ (atPc 0xFFE 0x6007).pc.toNat + 1 < 4096
    ∧ (0x6007#16).toNat = (memRead (atPc 0xFFE 0x6007).mem 0xFFE).toNat * 256 + (memRead (atPc 0xFFE 0x6007).mem 0xFFF).toNat
    ∧ decode 0x6007#16 = .ok (.ldImm 0 7) := by decide
theorem witness_LatchedBlockStaysPut : (after (atWord 0xF00A)).fault ≠ none := by decide
theorem witness_LatchedBlockStaysPut_safe : 1 ≤ 2 ∧ SafeRun 2 (atWord 0x1200) := ⟨by decide, _, rfl, by decide⟩
theorem witness_FetchOutsideMemoryLatches : (State.reset.setPc 0xFFF).fault = none ∧ 0xFFF ≤ (State.reset.setPc 0xFFF).pc.toNat := by decide
theorem witness_IllegalWordLatchesDecodeFailure : (atPc 0xFFE 0x5AB1).fault = none ∧ (atPc 0xFFE 0x5AB1).pc.toNat + 1 < 4096
    ∧ decode (atPc 0xFFE 0x5AB1).fetchWord = .error .illegal5 := by decide
theorem witness_FaultingStepChangesOnlyLatch : (atWord 0x00EE).fault = none ∧ step (atWord 0x00EE) = .next (after (atWord 0x00EE))
    ∧ (after (atWord 0x00EE)).fault = some ⟨.stackUnderflow, 0x200, some 0x00EE, none⟩ := ⟨by decide, rfl, by decide⟩
theorem witness_FaultingStepChangesOnlyLatch_fetch : (State.reset.setPc 0xFFF).fault = none
    ∧ step (State.reset.setPc 0xFFF) = .next (after (State.reset.setPc 0xFFF))
    ∧ (after (State.reset.setPc 0xFFF)).fault = some ⟨.memoryOutOfRange, 0xFFF, none, some 0x1000⟩ := ⟨by decide, rfl, by decide⟩
theorem witness_BlockNeverStopsByItself_runs : (atWord 0x6005).fault = none ∧ step (atWord 0x6005) = .next (after (atWord 0x6005))
    ∧ (after (atWord 0x6005)).fault = none := ⟨by decide, rfl, by decide⟩
theorem witness_BlockNeverStopsByItself_loops : (atWord 0x1200).fault = none ∧ (atWord 0x1200).pc.toNat + 1 < 4096
    ∧ (0x200#12).toNat = (atWord 0x1200).pc.toNat ∧ decode (atWord 0x1200).fetchWord = .ok (.jp 0x200) := by decide
theorem inv_atWord : Inv (atWord 0x6005) := by
  refine ⟨by decide, fun a ha => ?_, ⟨by decide, by decide⟩, fun r hr => ?_⟩
  · have h0 : a ≠ 0x200 := fun e => by subst e; exact absurd ha (by decide)
    have h1 : a ≠ 0x201 := fun e => by subst e; exact absurd ha (by decide)
    show memRead [(0x200, 0x60#8), (0x201, 0x05#8)] a = _
    simp [memRead, h0, h1, unlistedByte, ha]
  · have : (atWord 0x6005).fault = none := by decide
    rw [this] at hr
    cases hr
theorem witness_StepKeepsInvariant : Inv (atWord 0x6005) ∧ step (atWord 0x6005) = .next (after (atWord 0x6005)) := ⟨inv_atWord, rfl⟩
theorem witness_SessionKeepsInvariant : Inv (atWord 0x6005)
    ∧ ∃ t, session [.step, .timerTick, .setKey 3 true, .reset [0x12, 0x00] true, .step, .readFault] (atWord 0x6005) = .next t :=
  ⟨inv_atWord, _, rfl⟩
theorem witness_TimersAndKeysChangeOnlyByTheirInstructions : step (atWord 0xF315) = .next (after (atWord 0xF315)) := rfl
theorem witness_OnlyRandomDrawsAdvanceThePrng : step (atWord 0xC000) = .next (after (atWord 0xC000)) ∧ (atWord 0xC000).front = .runs (.rnd 0 0) :=
  ⟨rfl, by decide⟩
theorem witness_QuirkFlagIsFixedByReset : ∃ t, transact (.reset [0x60, 0x05] true) State.reset = .next t := ⟨_, rfl⟩
theorem witness_OnlyStoresChangeMemory : ∃ s t : State, step s = .next t ∧ memRead t.mem 0xFFD ≠ memRead s.mem 0xFFD :=
  ⟨regs ((atWord 0xF033).setI 0xFFD) [(0, 200)], _, rfl, by decide⟩
theorem witness_NoStepWritesTheFont : ∃ s t : State, step s = .next t ∧ 0x4F < 0x50 := ⟨(atWord 0xF155).setI 0x50, _, rfl, by decide⟩
theorem witness_OnlyDrawAndClearChangeTheDisplay : ∃ s t : State, step s = .next t ∧ pixel t.disp 31 63 ≠ pixel s.disp 31 63 :=
  ⟨(atWord 0x00E0).setDisp (lit [(31, 63)]), _, rfl, by decide⟩
theorem witness_OnlyCallAndReturnTouchTheStack : ∃ s t : State, step s = .next t ∧ (t.sp ≠ s.sp ∨ ∃ k : Fin 16, t.stack.get k ≠ s.stack.get k) :=
  ⟨atWord 0x2300, _, rfl, by decide⟩
theorem witness_OnlyIndexInstructionsChangeTheIndex : ∃ s t : State, step s = .next t ∧ t.i ≠ s.i := ⟨atWord 0xA2F0, _, rfl, by decide⟩
theorem witness_FlagsRegisterWriters : ∃ s t : State, step s = .next t ∧ t.reg regF ≠ s.reg regF :=
  ⟨regs (atWord 0x8014) [(0, 0xC8), (1, 0x64)], _, rfl, by decide⟩
theorem witness_DefaultNextPcIsPcPlusTwo : ∃ s t : State, s.fault = none ∧ s.front = .runs (.ldImm 0 7) ∧ setsPc (.ldImm 0 7) = false
    ∧ step s = .next t ∧ t.fault = none := ⟨atPc 0xFFE 0x6007, _, by decide, by decide, by decide, rfl, by decide⟩
theorem witness_TransfersSetPcToTheirTarget : (stacked (atWord 0x2300) 15).sp.val < 16 ∧ (stacked (atWord 0x00EE) 16).sp.val = (15 : Fin 16).val + 1 := by
  decide
theorem witness_CallPushesTheReturnAddress : (stacked (atWord 0x2300) 15).sp.val = (15 : Fin 16).val := by decide
theorem witness_ReturnPopsTheStack : (stacked (atWord 0x00EE) 1).sp.val = (0 : Fin 16).val + 1 := by decide
theorem witness_StackFaultsLatch : (stacked (atWord 0x2300) 16).sp.val = 16 ∧ (atWord 0x00EE).sp.val = 0 := by decide
theorem witness_CallThenReturnComesBack : ∃ s t u : State, s.sp.val < 16 ∧ exec (.call 0x300) s = .next t ∧ exec .ret t = .next u :=
  ⟨State.reset, _, _, by decide, rfl, rfl⟩
theorem witness_DecimalDigitsAreStored : 0x50 ≤ (State.reset.setI 0x50).i.toNat ∧ (State.reset.setI 0xFFD).i.toNat + 2 < 4096
    ∧ 0x50 ≤ (State.reset.setI 0xFFD).i.toNat ∧ MemWF (State.reset.setI 0xFFD).mem := by decide
theorem witness_BulkStoreCopiesRegisters : 0x50 ≤ (State.reset.setI 0xFF0).i.toNat ∧ (State.reset.setI 0xFF0).i.toNat + (0xF#4).toNat < 4096
    ∧ MemWF (State.reset.setI 0xFF0).mem := by decide
theorem witness_BulkLoadCopiesMemory : (State.reset.setI 0xFFF).i.toNat + (0#4).toNat < 4096 ∧ State.reset.i.toNat + (0xF#4).toNat < 4096 := by
  decide
theorem witness_StoreFaultsLatch : (State.reset.setI 0x4F).i.toNat < 0x50 ∧ 4096 ≤ (State.reset.setI 0xFFE).i.toNat + 2
    ∧ 4096 ≤ (State.reset.setI 0xFF1).i.toNat + (0xF#4).toNat := by decide
theorem witness_ReadFaultsLatch : 4096 ≤ (State.reset.setI 0x1000).i.toNat + (0#4).toNat
    ∧ 0 < (2#4).toNat ∧ 4096 < (State.reset.setI 0xFFF).i.toNat + (2#4).toNat := by decide
theorem witness_StoreThenLoadRestoresRegisters : ∃ s t r u : State, MemWF s.mem ∧ s.fault = none ∧ exec (.ldMemVx 2) s = .next t ∧ t.fault = none
    ∧ r.mem = t.mem ∧ r.i = s.i ∧ r.q = s.q ∧ r.fault = none ∧ exec (.ldVxMem 2) r = .next u :=
  ⟨(regs State.reset [(0, 1), (1, 2), (2, 3)]).setI 0x300, _,
    (State.reset.setI 0x300).storeBytes 0x300 [1, 2, 3], _, by decide, by decide, rfl, by decide, rfl, by decide, by decide, by decide, rfl⟩
theorem witness_StoredBytesAreFetched : ∃ s t r : State, MemWF s.mem ∧ s.fault = none ∧ exec (.ldMemVx 1) s = .next t ∧ t.fault = none
    ∧ (0#4).toNat < (1#4).toNat ∧ (1#4).toNat = (0#4).toNat + 1 ∧ r.mem = t.mem ∧ r.pc.toNat = s.i.toNat + (0#4).toNat :=
  ⟨(regs State.reset [(0, 0x60), (1, 0x05)]).setI 0x300, _, ((State.reset.setPc 0x300).storeBytes 0x300 [0x60, 0x05]),
    by decide, by decide, rfl, by decide, by decide, by decide, rfl, by decide⟩
theorem witness_DrawXorsTheSpriteOntoTheDisplay : ((0#4).toNat = 0 ∨ (State.reset.setI 0xFFFF).i.toNat + (0#4).toNat ≤ 4096)
    ∧ ((1#4).toNat = 0 ∨ (State.reset.setI 0xFFF).i.toNat + (1#4).toNat ≤ 4096) := by decide
theorem witness_DrawingTwiceRestoresTheDisplay : ∃ s t u : State, (0#4) ≠ regF ∧ (1#4) ≠ regF ∧ s.fault = none ∧ exec (.drw 0 1 1) s = .next t
    ∧ t.fault = none ∧ exec (.drw 0 1 1) t = .next u ∧ (∀ r c, pixel s.disp r c = false) :=
  ⟨data State.reset 0x300 [0x80], _, _, by decide, by decide, by decide, rfl, by decide, rfl, by decide⟩
theorem witness_ResetLeavesTheSpecifiedState : (List.replicate 3584 (0x12#8)).length ≤ 3584 := by rw [List.length_replicate]
theorem witness_ExecutionStartsAtTheImage : ∃ t, transact (.reset [0x60, 0x05] false) State.reset = .next t := ⟨_, rfl⟩

end Sys2Proof.Tests
end

section
/-! PROOFS. The frame of every instruction: what it may touch (`footprint`), shown by one rule per state operation. -/

namespace Sys2Proof.Safety

open Sys2Proof.Machine

/-! ## Frames compose, and each state operation has one -/

theorem Within.trans {f : Touches} {s t u : State} (h : Within f s t) (h' : Within f t u) : Within f s u := by
  obtain ⟨regs, index, stack, dt, st, key, disp, quirk, prng, latch, store⟩ := h
  obtain ⟨regs', index', stack', dt', st', key', disp', quirk', prng', latch', store'⟩ := h'
  exact ⟨fun j hj => (regs' j hj).trans (regs j hj), fun e => (index' e).trans (index e),
    fun e => ⟨(stack' e).1.trans (stack e).1, fun k => ((stack' e).2 k).trans ((stack e).2 k)⟩,
    fun e => (dt' e).trans (dt e), fun e => (st' e).trans (st e), fun k hk => (key' k hk).trans (key k hk),
    fun e r c => (disp' e r c).trans (disp e r c), fun e => (quirk' e).trans (quirk e), fun e => (prng' e).trans (prng e),
    fun e => (latch' e).trans (latch e), fun a ha => (store' a ha).trans (store a ha)⟩

/-! What a frame keeps, field by field. -/

section
variable {f : Touches} {s t : State} (h : Within f s t)
include h

theorem Within.reg_eq {j : Nibble} (hj : f.regs j = false) : t.reg j = s.reg j := by
  obtain ⟨regs, -⟩ := h
  exact regs j hj

theorem Within.i_eq (hf : f.index = false) : t.i = s.i := by
  obtain ⟨-, index, -⟩ := h
  exact index hf

theorem Within.stack_eq (hf : f.stack = false) : t.sp = s.sp ∧ ∀ k : Fin 16, t.stack.get k = s.stack.get k := by
  obtain ⟨-, -, stack, -⟩ := h
  exact stack hf

theorem Within.pixel_eq (hf : f.display = false) (r : Fin 32) (c : Fin 64) : pixel t.disp r c = pixel s.disp r c := by
  obtain ⟨-, -, -, -, -, -, display, -⟩ := h
  exact display hf r c

theorem Within.q_eq (hf : f.quirk = false) : t.q = s.q := by
  obtain ⟨-, -, -, -, -, -, -, quirk, -⟩ := h
  exact quirk hf

end

/-! One rule per state operation. -/

section
variable {f : Touches} {s : State}

theorem within_refl (f : Touches) (s : State) : Within f s s := by
  apply within_of <;> simp

theorem within_setPc (f : Touches) (s : State) (a : Word) : Within f s (s.setPc a) := by
  apply within_of <;> simp

theorem within_advance (f : Touches) (s : State) : Within f s s.advance := within_setPc f s _

theorem within_skipIf (f : Touches) (s : State) (c : Bool) : Within f s (s.skipIf c) := within_setPc f s _

theorem within_setReg {x : Nibble} (hx : f.regs x = true) (b : Byte) : Within f s (s.setReg x b) := by
  apply within_of
  case h1 =>
    intro j hj
    exact reg_setReg_other s b (by rintro rfl; simp [hx] at hj)
  all_goals simp

theorem within_writeRF {x : Nibble} (hx : f.regs x = true) (hF : f.regs regF = true) (res flag : Byte) :
    Within f s (s.writeRF x res flag) := by
  unfold State.writeRF
  split
  · exact within_setReg hF _
  · exact (within_setReg hx _).trans (within_setReg hF _)

theorem within_loadRegs {x : Nibble} (hx : ∀ j, j.toNat ≤ x.toNat → f.regs j = true) (a : Nat) : Within f s (loadRegs s a x) := by
  apply within_of
  case h1 =>
    intro j hj
    have : ¬ j.toNat ≤ x.toNat := fun hle => by simp [hx j hle] at hj
    rw [loadRegs_reg, if_neg this]
  all_goals simp

theorem within_setI {a : Word} (h : f.index = false → a = s.i) : Within f s (s.setI a) := by
  apply within_of
  case h2 => exact h
  all_goals simp

theorem within_setDt (h : f.dt = true) (b : Byte) : Within f s (s.setDt b) := by
  apply within_of <;> simp [h]

theorem within_setSt (h : f.st = true) (b : Byte) : Within f s (s.setSt b) := by
  apply within_of <;> simp [h]

theorem within_setDisp (h : f.display = true) (d : Display) : Within f s (s.setDisp d) := by
  apply within_of <;> simp [h]

theorem within_prngAdvance (h : f.prng = true) : Within f s s.prngAdvance := by
  apply within_of <;> simp [h]

theorem within_setStack (h : f.stack = true) (entries : Vector Word 16) (n : Fin 17) :
    Within f s { s with stack := entries, sp := n } := by
  apply within_of <;> simp [h, State.reg]

theorem within_takeFault (h : f.latch = true) (r : Raise) (w : Option Word) : Within f s (s.takeFault r w) := by
  apply within_of <;> simp [h]

theorem within_storeBytes {a n : Nat} {bs : List Byte} (hf : f.store = bytesFrom a n) (hn : bs.length = n) :
    Within f s (s.storeBytes a bs) := by
  apply within_of
  case h11 =>
    intro b hb
    have : ¬ (a ≤ b ∧ b < a + n) := by simpa [hf, bytesFrom] using hb
    exact memRead_memWriteList_outside bs s.mem a (by omega)
  all_goals simp

end

/-! ## The frame of an instruction -/

/-- What an instruction may touch in the state it starts in; a fault of its own included. FX55 and FX65 touch I only when Q = 1
(44_index_memory.md R204, R205). -/
def footprint (s : State) : Instr → Touches
  | .cls => { display := true }
  | .ret | .call _ => { stack := true, latch := true }
  | .sys _ | .ldVxK _ => { latch := true }
  | .jp _ | .jpV0 _ | .seImm _ _ | .sneImm _ _ | .seReg _ _ | .sneReg _ _ | .skp _ | .sknp _ => {}
  | .ldImm x _ | .addImm x _ | .ldReg x _ | .orReg x _ | .andReg x _ | .xorReg x _ | .ldVxDt x => { regs := onlyReg x }
  | .addReg x _ | .sub x _ | .shr x _ | .subn x _ | .shl x _ => { regs := regAndFlag x }
  | .ldI _ | .addI _ | .ldF _ => { index := true }
  | .rnd x _ => { regs := onlyReg x, prng := true }
  | .drw _ _ _ => { regs := onlyReg regF, display := true, latch := true }
  | .ldDtVx _ => { dt := true }
  | .ldStVx _ => { st := true }
  | .ldB _ => { store := bytesFrom s.i.toNat 3, latch := true }
  | .ldMemVx x => { store := bytesFrom s.i.toNat (x.toNat + 1), index := s.q, latch := true }
  | .ldVxMem x => { regs := regsUpTo x, index := s.q, latch := true }

@[simp] theorem onlyReg_self (x : Nibble) : onlyReg x x = true := by simp [onlyReg]

@[simp] theorem regAndFlag_self (x : Nibble) : regAndFlag x x = true := by simp [regAndFlag]

@[simp] theorem regAndFlag_regF (x : Nibble) : regAndFlag x regF = true := by simp [regAndFlag]

/-- With Q = 0 the transfers leave I as it is. -/
theorem quirkIndex_of_not_q {s : State} (x : Nibble) (h : s.q = false) : quirkIndex s x = s.i := by simp [quirkIndex, h]

/-- An instruction stays within its footprint. -/
theorem exec_within {i : Instr} {s t : State} (h : exec i s = .next t) : Within (footprint s i) s t := by
  cases i with
  | cls => cases h; exact (within_setDisp rfl _).trans (within_advance _ _)
  | ret =>
    rcases execRet_cases h with ⟨k, -, rfl⟩ | ⟨-, rfl⟩
    · exact (within_setStack rfl _ _).trans (within_setPc _ _ _)
    · exact within_takeFault rfl _ _
  | call nnn =>
    rcases execCall_cases h with ⟨k, rfl⟩ | ⟨-, rfl⟩
    · exact (within_setStack rfl _ _).trans (within_setPc _ _ _)
    · exact within_takeFault rfl _ _
  | sys nnn =>
    rcases sysPolicy_cases h with ⟨-, rfl⟩ | ⟨-, rfl⟩
    · exact within_takeFault rfl _ _
    · exact within_advance _ _
  | ldVxK => cases h; exact within_takeFault rfl _ _
  | jp nnn | jpV0 nnn => cases h; exact within_setPc _ _ _
  | seImm x nn | sneImm x nn | seReg x y | sneReg x y | skp x | sknp x => cases h; exact within_skipIf _ _ _
  | ldImm x nn | addImm x nn | ldReg x y | orReg x y | andReg x y | xorReg x y | ldVxDt x =>
    cases h; exact (within_setReg (onlyReg_self x) _).trans (within_advance _ _)
  | addReg x y | sub x y | shr x y | subn x y | shl x y =>
    cases h; exact (within_writeRF (regAndFlag_self x) (regAndFlag_regF x) _ _).trans (within_advance _ _)
  | ldI nnn | addI x | ldF x => cases h; exact (within_setI (by simp [footprint])).trans (within_advance _ _)
  | rnd x nn =>
    cases h
    exact ((within_prngAdvance rfl).trans (within_setReg (onlyReg_self x) _)).trans (within_advance _ _)
  | ldDtVx x => cases h; exact (within_setDt rfl _).trans (within_advance _ _)
  | ldStVx x => cases h; exact (within_setSt rfl _).trans (within_advance _ _)
  | drw x y n =>
    rcases runOrFault_guarded_cases h with ⟨-, rfl⟩ | ⟨r, -, rfl⟩
    · exact ((within_setDisp rfl _).trans (within_setReg (onlyReg_self regF) _)).trans (within_advance _ _)
    · exact within_takeFault rfl _ _
  | ldB x =>
    rcases runOrFault_guarded_cases h with ⟨-, rfl⟩ | ⟨r, -, rfl⟩
    · exact (within_storeBytes rfl rfl).trans (within_advance _ _)
    · exact within_takeFault rfl _ _
  | ldMemVx x =>
    rcases runOrFault_guarded_cases h with ⟨-, rfl⟩ | ⟨r, -, rfl⟩
    · exact ((within_storeBytes rfl (regBlock_length s x)).trans (within_setI (quirkIndex_of_not_q x))).trans (within_advance _ _)
    · exact within_takeFault rfl _ _
  | ldVxMem x =>
    rcases runOrFault_guarded_cases h with ⟨-, rfl⟩ | ⟨r, -, rfl⟩
    · exact ((within_loadRegs (fun j hj => decide_eq_true hj) _).trans (within_setI (quirkIndex_of_not_q x))).trans (within_advance _ _)
    · exact within_takeFault rfl _ _

/-- A front that ends the Step changes the latch at most. -/
theorem front_ends_within {s t : State} (h : s.front = .ends t) : Within { latch := true } s t := by
  rcases front_ends h with ⟨-, rfl⟩ | ⟨-, -, rfl⟩ | ⟨-, -, -, rfl⟩
  · exact within_refl _ _
  · exact within_takeFault rfl _ _
  · exact within_takeFault rfl _ _

/-- A step changes the latch at most, or it runs an instruction, within that instruction's footprint. -/
theorem step_within {s t : State} (h : step s = .next t) :
    Within { latch := true } s t ∨ ∃ i, s.front = .runs i ∧ exec i s = .next t ∧ Within (footprint s i) s t :=
  (step_cases h).imp front_ends_within fun ⟨i, hi, he⟩ => ⟨i, hi, he, exec_within he⟩

end Sys2Proof.Safety
end

section
/-! PROOFS. The invariant of the machine: it holds after reset, and every step, transaction and session keeps it. -/

namespace Sys2Proof.Safety

open Sys2Proof.Machine

/-! ## What an instruction does to PC and to the stack -/

/-- Where PC is after an instruction: at a faulting instruction still, at one of the next two instruction words, at a transfer's target, or
at a popped entry (40_cycle.md R104 to R107). -/
theorem exec_pc_cases {i : Instr} {s t : State} (h : exec i s = .next t) :
    t.pc = s.pc ∨ t.pc = s.pc + 2#16 ∨ t.pc = s.pc + 4#16
    ∨ (∃ nnn, t.pc = addrOperand nnn ∨ t.pc = addrOperand nnn + wideReg s 0#4) ∨ ∃ k : Fin 16, t.pc = s.stack.get k := by
  cases i with
  | ret =>
    rcases execRet_cases h with ⟨k, -, rfl⟩ | ⟨-, rfl⟩
    · exact .inr (.inr (.inr (.inr ⟨k, rfl⟩)))
    · exact .inl rfl
  | call nnn =>
    rcases execCall_cases h with ⟨-, rfl⟩ | ⟨-, rfl⟩
    · exact .inr (.inr (.inr (.inl ⟨nnn, .inl rfl⟩)))
    · exact .inl rfl
  | sys nnn =>
    rcases sysPolicy_cases h with ⟨-, rfl⟩ | ⟨-, rfl⟩
    · exact .inl rfl
    · exact .inr (.inl rfl)
  | jp nnn => cases h; exact .inr (.inr (.inr (.inl ⟨nnn, .inl rfl⟩)))
  | jpV0 nnn => cases h; exact .inr (.inr (.inr (.inl ⟨nnn, .inr rfl⟩)))
  | seImm x nn | sneImm x nn | seReg x y | sneReg x y | skp x | sknp x =>
    cases h
    rw [skipIf_pc]
    split
    · exact .inr (.inr (.inl rfl))
    · exact .inr (.inl rfl)
  | drw | ldB | ldMemVx | ldVxMem =>
    rcases runOrFault_guarded_cases h with ⟨-, rfl⟩ | ⟨r, -, rfl⟩
    · exact .inr (.inl rfl)
    · exact .inl rfl
  | ldVxK => cases h; exact .inl rfl
  | addReg x y | sub x y | shr x y | subn x y | shl x y => cases h; right; left; simp
  | _ => cases h; exact .inr (.inl rfl)

/-- What an instruction does to the return stack: nothing, or it is a RET that lowers SP alone, or a CALL that puts PC + 2 in the first
free entry (10_state.md R25). -/
theorem exec_stack_cases {i : Instr} {s t : State} (h : exec i s = .next t) :
    (t.sp = s.sp ∧ ∀ k : Fin 16, t.stack.get k = s.stack.get k)
    ∨ (i = .ret ∧ t.sp.val + 1 = s.sp.val ∧ ∀ k : Fin 16, t.stack.get k = s.stack.get k)
    ∨ ∃ nnn, i = .call nnn ∧ t.sp.val = s.sp.val + 1
        ∧ ∀ k : Fin 16, t.stack.get k = if s.sp.val = k.val then s.pc + 2#16 else s.stack.get k := by
  cases i with
  | ret =>
    rcases execRet_cases h with ⟨k, hk, rfl⟩ | ⟨-, rfl⟩
    · exact .inr (.inl ⟨rfl, hk.symm, fun _ => rfl⟩)
    · exact .inl ⟨rfl, fun _ => rfl⟩
  | call nnn =>
    rcases execCall_cases h with ⟨hs, rfl⟩ | ⟨-, rfl⟩
    · exact .inr (.inr ⟨nnn, rfl, rfl, fun k => Vector.getElem_set hs k.isLt⟩)
    · exact .inl ⟨rfl, fun _ => rfl⟩
  | _ => exact .inl ((exec_within h).stack_eq rfl)

/-! ## Each part of the invariant -/

theorem addrOperand_toNat (nnn : Addr12) : (addrOperand nnn).toNat = nnn.toNat := by
  have := nnn.isLt
  simp [addrOperand]
  omega

/-- Where an instruction can be fetched, its execution keeps the bounds of R24: 0x0FFE + 4 for a skip, 0xFFF + 0xFF for BNNN. -/
theorem exec_keeps_pcBounded {i : Instr} {s t : State} (h : exec i s = .next t) (hp : s.pc.toNat + 1 < Config.memSize)
    (hb : PcBounded s) : PcBounded t := by
  obtain ⟨hpc, hstack⟩ := hb
  replace hp : s.pc.toNat + 1 < 4096 := hp
  have h2 : (s.pc + 2#16).toNat = s.pc.toNat + 2 := by bv_omega
  constructor
  · rcases exec_pc_cases h with e | e | e | ⟨nnn, e | e⟩ | ⟨k, e⟩ <;> rw [e]
    · exact hpc
    · omega
    · bv_omega
    · have := nnn.isLt
      rw [addrOperand_toNat]
      omega
    · have := nnn.isLt
      have := (s.reg 0#4).isLt
      have : (wideReg s 0#4).toNat = (s.reg 0#4).toNat := by simp [wideReg]; omega
      rw [BitVec.toNat_add, addrOperand_toNat]
      omega
    · exact Nat.le_trans (hstack k) (by decide)
  · intro k
    have hk := hstack k
    rcases exec_stack_cases h with ⟨-, e⟩ | ⟨-, -, e⟩ | ⟨nnn, -, -, e⟩ <;> rw [e k]
    · exact hk
    · exact hk
    · split
      · omega
      · exact hk

/-- A store that passed its check keeps the canonical form and the font (20_memory.md R52, R59). -/
theorem checkedStore_keeps {m : Memory} {a n : Nat} {bs : List Byte} (hn : bs.length = n) (hc : checkWrite a n = none) (hm : MemWF m) :
    MemWF (memWriteList m a bs) ∧ ∀ b, b < Config.fontLen → memRead (memWriteList m a bs) b = memRead m b := by
  rcases checkWrite_eq_none.mp hc with h0 | ⟨hlo, hhi⟩
  · have : bs = [] := List.eq_nil_of_length_eq_zero (hn.trans h0)
    subst this
    exact ⟨hm, fun _ _ => rfl⟩
  · exact ⟨memWriteList_wf bs (by omega) hm, fun b hb => memRead_memWriteList_outside bs m a (.inl (by omega))⟩

/-- An instruction keeps the canonical form and the font. -/
theorem exec_keeps_memory {i : Instr} {s t : State} (h : exec i s = .next t) (hm : MemWF s.mem) :
    MemWF t.mem ∧ ∀ a, a < Config.fontLen → memRead t.mem a = memRead s.mem a := by
  rcases exec_mem_cases h with e | ⟨x, -, hc, e⟩ | ⟨x, -, hc, e⟩ <;> rw [e]
  · exact ⟨hm, fun _ _ => rfl⟩
  · exact checkedStore_keeps rfl hc hm
  · exact checkedStore_keeps (regBlock_length s x) hc hm

theorem latchPrecise_of_clear {s : State} (h : s.fault = none) : LatchPrecise s := by
  intro r hr
  cases h.symm.trans hr

/-- A fault entry keeps the invariant when its word is absent exactly where no fetch can be and its address fits its kind. -/
theorem takeFault_keeps_inv {s : State} {r : Raise} {w : Option Word} (hi : Inv s) (hw : w = none ↔ Config.memSize ≤ s.pc.toNat + 1)
    (hr : r.addr.isSome ↔ r.kind = .memoryOutOfRange ∨ r.kind = .readOnlyWrite) : Inv (s.takeFault r w) := by
  obtain ⟨hm, hfont, hpc, -⟩ := hi
  refine ⟨hm, hfont, hpc, fun rec hrec => ?_⟩
  cases hrec
  exact ⟨rfl, hw, hr⟩

/-! ## Steps, transactions, sessions -/

/-- An instruction whose fetch succeeded keeps the invariant. -/
theorem exec_keeps_inv {i : Instr} {s t : State} (hf : s.fault = none) (hp : s.pc.toNat + 1 < Config.memSize)
    (h : exec i s = .next t) (hi : Inv s) : Inv t := by
  rcases exec_latch_cases h with hl | ⟨r, rfl, hr⟩
  · obtain ⟨hm, hfont, hpc, -⟩ := hi
    obtain ⟨hm', hkeep⟩ := exec_keeps_memory h hm
    exact ⟨hm', fun a ha => (hkeep a ha).trans (hfont a ha), exec_keeps_pcBounded h hp hpc, latchPrecise_of_clear (hl.trans hf)⟩
  · exact takeFault_keeps_inv hi (iff_of_false nofun (by omega)) hr

/-- The front of a Step that ends it keeps the invariant. -/
theorem front_ends_keeps_inv {s t : State} (h : s.front = .ends t) (hi : Inv s) : Inv t := by
  rcases front_ends h with ⟨-, rfl⟩ | ⟨-, hp, rfl⟩ | ⟨-, hp, -, rfl⟩
  · exact hi
  · exact takeFault_keeps_inv hi (iff_of_true rfl hp) (by simp)
  · exact takeFault_keeps_inv hi (iff_of_false nofun (by omega)) (by simp)

theorem step_keeps_inv {s t : State} (h : step s = .next t) (hi : Inv s) : Inv t := by
  rcases step_cases h with he | ⟨i, hr, he⟩
  · exact front_ends_keeps_inv he hi
  · obtain ⟨hf, hp, -⟩ := front_runs hr
    exact exec_keeps_inv hf hp he hi

/-- What Reset answers: the reset state with an accepted image at PROG_BASE (70_reset_and_hazards.md R340, R341). -/
theorem resetWith_next {rom : List Byte} {ls : Bool} {t : State} (h : resetWith rom ls = .next t) :
    rom.length ≤ Config.maxRom ∧ t = { State.reset with mem := memWriteList State.reset.mem Config.progBase rom, q := ls } := by
  unfold resetWith at h
  split at h
  · next hlen => cases h; exact ⟨hlen, rfl⟩
  · cases h

/-- Empty memory is canonical, so an accepted image above the font gives a state that meets the invariant. -/
theorem inv_resetWith {rom : List Byte} {ls : Bool} {t : State} (h : resetWith rom ls = .next t) : Inv t := by
  obtain ⟨hlen, rfl⟩ := resetWith_next h
  have hfont : ∀ a, a < Config.fontLen → memRead (memWriteList [] Config.progBase rom) a = Config.font a := by
    intro a ha
    rw [memRead_memWriteList_outside rom [] _ (.inl (Nat.lt_trans ha (by decide)))]
    simp [memRead, unlistedByte, ha]
  have hpc : PcBounded State.reset := ⟨by decide, by decide⟩
  exact ⟨memWriteList_wf rom (Nat.add_le_add_left hlen Config.progBase) (by decide), hfont, hpc, latchPrecise_of_clear rfl⟩

theorem inv_reset : Inv State.reset := inv_resetWith (rom := []) (ls := false) rfl

/-- The invariant speaks of memory, PC, the stack entries and the latch alone. -/
theorem Inv.of_eq {s t : State} (hi : Inv s) (hmem : t.mem = s.mem) (hpc : t.pc = s.pc) (hstack : t.stack = s.stack)
    (hfault : t.fault = s.fault) : Inv t := by
  unfold Inv FontIntact PcBounded LatchPrecise at *
  rwa [hmem, hpc, hstack, hfault]

theorem transact_keeps_inv {tr : Transaction} {s t : State} (h : transact tr s = .next t) (hi : Inv s) : Inv t := by
  cases tr with
  | reset rom ls => exact inv_resetWith h
  | step => exact step_keeps_inv h hi
  | timerTick | setKey => cases h; exact hi.of_eq rfl rfl rfl rfl
  | readDisplay | readSound | readFault => cases h; exact hi

/-- A session that answers a state: its first transaction answered one, and the rest of the session went on from it. -/
theorem session_cons_next {tr : Transaction} {ts : List Transaction} {s t : State} (h : session (tr :: ts) s = .next t) :
    ∃ u, transact tr s = .next u ∧ session ts u = .next t := by
  unfold session at h
  split at h
  · next u hu => exact ⟨u, hu, h⟩
  · cases h
  · cases h

theorem session_keeps_inv {ts : List Transaction} {s t : State} (hi : Inv s) (h : session ts s = .next t) : Inv t := by
  induction ts generalizing s with
  | nil => cases h; exact hi
  | cons tr ts ih =>
    obtain ⟨u, hu, hrest⟩ := session_cons_next h
    exact ih (transact_keeps_inv hu hi) hrest

end Sys2Proof.Safety
end

section
/-! PROOFS. The obligations of 10_state.md. -/

namespace Sys2Proof.Safety

open Sys2Proof.Machine

/-- Settles O14: the front of the step keeps the invariant, and so does the instruction it runs. -/
theorem stepKeepsInvariant : Obligations.StepKeepsInvariant :=
  fun _ _ hi h => step_keeps_inv h hi

/-- Settles O16, by induction on the session. -/
theorem sessionKeepsInvariant : Obligations.SessionKeepsInvariant :=
  fun _ _ _ hi h => session_keeps_inv hi h

/-- Settles O15: it is Reset with an empty image. -/
theorem resetStateHasInvariant : Obligations.ResetStateHasInvariant := inv_reset

/-! ## What a step changes, from the footprint of its instruction -/

/-- No instruction touches Q. -/
theorem step_q {s t : State} (h : step s = .next t) : t.q = s.q := by
  rcases step_within h with hw | ⟨i, -, -, hw⟩
  · exact hw.q_eq rfl
  · exact hw.q_eq (by cases i <;> rfl)

/-- Settles O19: Reset writes its argument, and no step touches Q. -/
theorem quirkFlagIsFixedByReset : Obligations.QuirkFlagIsFixedByReset := by
  intro tr s t h
  cases tr with
  | reset rom ls =>
    obtain ⟨-, rfl⟩ := resetWith_next h
    rfl
  | step => exact step_q h
  | timerTick | setKey | readDisplay | readSound | readFault => cases h; rfl

theorem cls_or_drw_of_footprint_display {s : State} {i : Instr} (h : (footprint s i).display = true) : i = .cls ∨ ∃ x y n, i = .drw x y n := by
  cases i with
  | cls => exact .inl rfl
  | drw x y n => exact .inr ⟨x, y, n, rfl⟩
  | _ => cases h

/-- Settles O22: a changed pixel puts the display in the instruction's footprint. -/
theorem onlyDrawAndClearChangeTheDisplay : Obligations.OnlyDrawAndClearChangeTheDisplay := by
  intro s t r c h hne
  rcases step_within h with hw | ⟨i, hr, -, hw⟩
  · exact absurd (hw.pixel_eq rfl r c) hne
  · have hd : (footprint s i).display = true :=
      eq_true_of_ne_false fun hd => hne (hw.pixel_eq hd r c)
    rcases cls_or_drw_of_footprint_display hd with rfl | ⟨x, y, n, rfl⟩
    · exact .inl hr
    · exact .inr ⟨x, y, n, hr⟩

/-- Settles O23: the two cases of `exec_stack_cases` that change the stack. -/
theorem onlyCallAndReturnTouchTheStack : Obligations.OnlyCallAndReturnTouchTheStack := by
  intro s t h hne
  have changed : ¬ (t.sp = s.sp ∧ ∀ k : Fin 16, t.stack.get k = s.stack.get k) := by
    rintro ⟨hsp, hst⟩
    rcases hne with hne | ⟨k, hk⟩
    · exact hne hsp
    · exact hk (hst k)
  rcases step_within h with hw | ⟨i, hr, he, -⟩
  · exact absurd (hw.stack_eq rfl) changed
  · rcases exec_stack_cases he with same | ⟨rfl, hsp, hst⟩ | ⟨nnn, rfl, hsp, -⟩
    · exact absurd same changed
    · exact .inr ⟨hr, hsp, hst⟩
    · exact .inl ⟨nnn, hr, hsp⟩

theorem indexWriter_of_footprint_index {s : State} {i : Instr} (h : (footprint s i).index = true) :
    (∃ nnn, i = .ldI nnn) ∨ (∃ x, i = .addI x ∨ i = .ldF x) ∨ (s.q = true ∧ ∃ x, i = .ldMemVx x ∨ i = .ldVxMem x) := by
  cases i with
  | ldI nnn => exact .inl ⟨nnn, rfl⟩
  | addI x => exact .inr (.inl ⟨x, .inl rfl⟩)
  | ldF x => exact .inr (.inl ⟨x, .inr rfl⟩)
  | ldMemVx x => exact .inr (.inr ⟨h, x, .inl rfl⟩)
  | ldVxMem x => exact .inr (.inr ⟨h, x, .inr rfl⟩)
  | _ => cases h

/-- Settles O24: a changed I puts the index in the instruction's footprint. -/
theorem onlyIndexInstructionsChangeTheIndex : Obligations.OnlyIndexInstructionsChangeTheIndex := by
  intro s t h hne
  rcases step_within h with hw | ⟨i, hr, -, hw⟩
  · exact absurd (hw.i_eq rfl) hne
  · have hx : (footprint s i).index = true :=
      eq_true_of_ne_false fun hx => hne (hw.i_eq hx)
    simpa [hr] using indexWriter_of_footprint_index hx

/-- FX65 reaches V[F] only when X = F. -/
theorem eq_regF_of_regsUpTo {x : Nibble} (h : regsUpTo x regF = true) : x = regF := by
  have : regF.toNat ≤ x.toNat := of_decide_eq_true h
  have : regF.toNat = 15 := rfl
  have := x.isLt
  exact BitVec.eq_of_toNat_eq (by omega)

theorem flagWriter_of_footprint_regF {s : State} {i : Instr} (h : (footprint s i).regs regF = true) : writesFlag i = true ∨ destReg i = some regF := by
  cases i with
  | addReg | sub | shr | subn | shl | drw => exact .inl rfl
  | ldImm x _ | addImm x _ | ldReg x _ | orReg x _ | andReg x _ | xorReg x _ | ldVxDt x | rnd x _ =>
    have : regF = x := eq_of_beq h
    exact .inr (congrArg some this.symm)
  | ldVxMem x => exact .inr (congrArg some (eq_regF_of_regsUpTo h))
  | _ => cases h

/-- Settles O25: a changed V[F] puts register F in the instruction's footprint. -/
theorem flagsRegisterWriters : Obligations.FlagsRegisterWriters := by
  intro s t h hne
  rcases step_within h with hw | ⟨i, hr, -, hw⟩
  · exact absurd (hw.reg_eq rfl) hne
  · have hx : (footprint s i).regs regF = true :=
      eq_true_of_ne_false fun hx => hne (hw.reg_eq hx)
    exact ⟨i, hr, flagWriter_of_footprint_regF hx⟩

/-! ## Reads -/

/-- Bit r * 64 + c of ReadDisplay is the pixel of row r and column c (10_state.md R28). -/
theorem readDisplay_getElem? (s : State) (r : Fin 32) (c : Fin 64) : s.readDisplay[r.val * 64 + c.val]? = some (pixel s.disp r c) := by
  have hr := r.isLt
  have hc := c.isLt
  have hrow : (r.val * 64 + c.val) / 64 = r.val := by omega
  have hcol : (r.val * 64 + c.val) % 64 = c.val := by omega
  simp only [State.readDisplay, Vector.getElem?_flatten, hrow, hcol, pixel]
  rw [dif_pos (by omega)]

/-- Settles O57: the flattened display is row-major; the other answers are the fields themselves. -/
theorem readsAnswerAndChangeNothing : Obligations.ReadsAnswerAndChangeNothing := by
  intro s
  refine ⟨?_, ⟨s.readDisplay, rfl, readDisplay_getElem? s⟩, rfl, rfl⟩
  intro tr htr
  fin_cases htr <;> rfl

end Sys2Proof.Safety
end

section
/-! PROOFS. The obligations of 20_memory.md. -/

namespace Sys2Proof.Safety

open Sys2Proof.Machine

/-! ## Which bytes a step can change -/

theorem Within.memRead_eq {f : Touches} {s t : State} (h : Within f s t) {a : Nat} (ha : f.store a = false) :
    memRead t.mem a = memRead s.mem a := by
  obtain ⟨-, -, -, -, -, -, -, -, -, -, store⟩ := h
  exact store a ha

@[simp] theorem bytesFrom_eq_true {a n b : Nat} : bytesFrom a n b = true ↔ a ≤ b ∧ b < a + n := decide_eq_true_iff

/-- The two instructions that store, each with its range from I up (20_memory.md R58). -/
theorem storer_of_footprint_store {s : State} {i : Instr} {a : Nat} (h : (footprint s i).store a = true) :
    ∃ x, (i = .ldB x ∧ s.i.toNat ≤ a ∧ a ≤ s.i.toNat + 2) ∨ (i = .ldMemVx x ∧ s.i.toNat ≤ a ∧ a ≤ s.i.toNat + x.toNat) := by
  cases i with
  | ldB x =>
    obtain ⟨hlo, hhi⟩ := bytesFrom_eq_true.mp h
    exact ⟨x, .inl ⟨rfl, hlo, by omega⟩⟩
  | ldMemVx x =>
    obtain ⟨hlo, hhi⟩ := bytesFrom_eq_true.mp h
    exact ⟨x, .inr ⟨rfl, hlo, by omega⟩⟩
  | _ => cases h

/-- Settles O20: a changed byte is in the store of the instruction's footprint. -/
theorem onlyStoresChangeMemory : Obligations.OnlyStoresChangeMemory := by
  intro s t a h hne
  rcases step_within h with hw | ⟨i, hr, -, hw⟩
  · exact absurd (hw.memRead_eq rfl) hne
  · have ha : (footprint s i).store a = true :=
      eq_true_of_ne_false fun ha => hne (hw.memRead_eq ha)
    simpa [hr] using storer_of_footprint_store ha

/-! ## The font -/

/-- A store that passed its check leaves every byte of the font, in any memory: the check admits no address below 0x50 (20_memory.md
R52, R59). -/
theorem memRead_checkedStore_font {m : Memory} {a n b : Nat} {bs : List Byte} (hn : bs.length = n) (hc : checkWrite a n = none)
    (hb : b < Config.fontLen) : memRead (memWriteList m a bs) b = memRead m b := by
  apply memRead_memWriteList_outside
  rcases checkWrite_eq_none.mp hc with h0 | ⟨hlo, -⟩ <;> omega

/-- Settles O21: the two stores are checked, and nothing else changes memory. -/
theorem noStepWritesTheFont : Obligations.NoStepWritesTheFont := by
  intro s t a h ha
  rcases step_cases h with he | ⟨i, -, he⟩
  · exact (front_ends_within he).memRead_eq rfl
  · rcases exec_mem_cases he with hm | ⟨x, -, hc, hm⟩ | ⟨x, -, hc, hm⟩ <;> rw [hm]
    · exact memRead_checkedStore_font rfl hc ha
    · exact memRead_checkedStore_font (regBlock_length s x) hc ha

/-! ## Stored bytes as an instruction word -/

/-- The byte at the lower address is the high one (20_memory.md R56). -/
theorem wordOfBytes_toNat (hi lo : Byte) : (wordOfBytes hi lo).toNat = hi.toNat * 256 + lo.toNat := by
  rw [wordOfBytes, BitVec.toNat_append, ← Nat.shiftLeft_add_eq_or_of_lt lo.isLt, Nat.shiftLeft_eq]

/-- FX55 without a fault: its range is inside memory, and it has stored the register block there (44_index_memory.md R204). -/
theorem exec_ldMemVx_mem {x : Nibble} {s t : State} (h : exec (.ldMemVx x) s = .next t) (ht : t.fault = none) :
    s.i.toNat + (x.toNat + 1) ≤ Config.memSize ∧ t.mem = memWriteList s.mem s.i.toNat (regBlock s x) := by
  rcases runOrFault_guarded_cases h with ⟨hc, rfl⟩ | ⟨r, -, rfl⟩
  · rcases checkWrite_eq_none.mp hc with h0 | ⟨-, hhi⟩
    · cases h0
    · exact ⟨hhi, rfl⟩
  · cases ht

/-- After FX55 without a fault the byte at I + k is V[k], for every k up to X (44_index_memory.md R204). -/
theorem memRead_exec_ldMemVx {x k : Nibble} {s t : State} (hm : MemWF s.mem) (h : exec (.ldMemVx x) s = .next t)
    (ht : t.fault = none) (hk : k.toNat ≤ x.toNat) : memRead t.mem (s.i.toNat + k.toNat) = s.reg k := by
  obtain ⟨hrange, hmem⟩ := exec_ldMemVx_mem h ht
  have hlen := regBlock_length s x
  rw [hmem, memRead_memWriteList (regBlock s x) (by omega) (by omega) hm, regBlock_getElem]

/-- Settles O48: the fetch reads the stored bytes k and k + 1. -/
theorem storedBytesAreFetched : Obligations.StoredBytesAreFetched := by
  intro x k j s t r hm _ h ht hk hj hmem hpc
  have hhi : memRead r.mem r.pc.toNat = s.reg k := by
    rw [hmem, hpc]
    exact memRead_exec_ldMemVx hm h ht (Nat.le_of_lt hk)
  have hlo : memRead r.mem (r.pc.toNat + 1) = s.reg j := by
    rw [hmem, hpc, Nat.add_assoc, ← hj]
    exact memRead_exec_ldMemVx hm h ht (by omega)
  rw [State.fetchWord, hhi, hlo, wordOfBytes_toNat]

end Sys2Proof.Safety
end

section
/-! PROOFS. The codec by shapes and groups: what a word's fields say about its decoding and about the table rows it fits
(30_encoding.md R71 to R76). -/

namespace Sys2Proof

/-! ## The fields as numbers, and a word put together from them -/

theorem fieldN1_toNat (w : Word) : (fieldN1 w).toNat = w.toNat / 4096 := by
  have := w.isLt
  simp only [fieldN1, BitVec.extractLsb'_toNat, Nat.shiftRight_eq_div_pow]
  omega

theorem fieldX_toNat (w : Word) : (fieldX w).toNat = w.toNat / 256 % 16 := by
  simp [fieldX, BitVec.extractLsb'_toNat, Nat.shiftRight_eq_div_pow]

theorem fieldY_toNat (w : Word) : (fieldY w).toNat = w.toNat / 16 % 16 := by
  simp [fieldY, BitVec.extractLsb'_toNat, Nat.shiftRight_eq_div_pow]

theorem fieldN_toNat (w : Word) : (fieldN w).toNat = w.toNat % 16 := by
  simp [fieldN, BitVec.extractLsb'_toNat]

theorem fieldNN_toNat (w : Word) : (fieldNN w).toNat = w.toNat % 256 := by
  simp [fieldNN, BitVec.extractLsb'_toNat]

theorem fieldNNN_toNat (w : Word) : (fieldNNN w).toNat = w.toNat % 4096 := by
  simp [fieldNNN, BitVec.extractLsb'_toNat]

theorem encXYN_of_fields {w : Word} {g n : Nibble} (hg : fieldN1 w = g) (hn : fieldN w = n) :
    encXYN g (fieldX w) (fieldY w) n = w := by
  subst hg hn
  exact encXYN_fields w

theorem encXNN_of_fields {w : Word} {g : Nibble} {nn : Byte} (hg : fieldN1 w = g) (hnn : fieldNN w = nn) :
    encXNN g (fieldX w) nn = w := by
  subst hg hnn
  apply BitVec.eq_of_toNat_eq
  rw [encXNN_toNat, fieldN1_toNat, fieldX_toNat, fieldNN_toNat]
  omega

theorem encNNN_of_fields {w : Word} {g : Nibble} (hg : fieldN1 w = g) : encNNN g (fieldNNN w) = w := by
  subst hg
  apply BitVec.eq_of_toNat_eq
  rw [encNNN_toNat, fieldN1_toNat, fieldNNN_toNat]
  omega

/-! ## Decoding an encoded word -/

theorem encNNN_zero_ne {nnn a : Addr12} (h : nnn ≠ a) : encNNN 0x0#4 nnn ≠ encNNN 0x0#4 a := by
  intro he
  have hf := congrArg fieldNNN he
  simp only [fieldNNN_encNNN] at hf
  exact h hf

/-- Away from the operands of CLS and RET, group 0 is SYS (R75, R77). -/
theorem decode0_encNNN {nnn : Addr12} (h : sysOperandOk nnn = true) : decode0 (encNNN 0x0#4 nnn) = .sys nnn := by
  obtain ⟨hcls, hret⟩ : nnn ≠ 0x0E0#12 ∧ nnn ≠ 0x0EE#12 := by simpa [sysOperandOk] using h
  have hcls' : encNNN 0x0#4 nnn ≠ 0x00E0#16 := encNNN_zero_ne hcls
  have hret' : encNNN 0x0#4 nnn ≠ 0x00EE#16 := encNNN_zero_ne hret
  rw [decode0, if_neg hcls', if_neg hret', fieldNNN_encNNN]

theorem decode_encode {i : Instr} (h : i.wellFormed = true) : decode (encode i) = .ok i := by
  cases i with
  | cls | ret => decide
  | sys nnn => simpa [decode, encode] using decode0_encNNN h
  | jp | call | ldI | jpV0 | seImm | sneImm | ldImm | addImm | rnd | seReg | sneReg | drw => simp [decode, encode]
  | ldReg | orReg | andReg | xorReg | addReg | sub | shr | subn | shl => simp [decode, decode8, encode]
  | skp | sknp => simp [decode, decodeE, encode]
  | ldVxDt | ldVxK | ldDtVx | ldStVx | addI | ldF | ldB | ldMemVx | ldVxMem => simp [decode, decodeF, encode]

/-! ## Encoding a decoded word, group by group

Splitting `decode` gives the groups 0 to F in order, so case `h_n` is group n - 1. -/

theorem encode_decode0 {w : Word} (hg : fieldN1 w = 0x0#4) : (decode0 w).wellFormed = true ∧ encode (decode0 w) = w := by
  have hw : encNNN 0x0#4 (fieldNNN w) = w := encNNN_of_fields hg
  unfold decode0
  split
  · next h => exact ⟨rfl, h.symm⟩
  · next hcls =>
    split
    · next h => exact ⟨rfl, h.symm⟩
    · next hret =>
      have hok : fieldNNN w ≠ 0x0E0#12 ∧ fieldNNN w ≠ 0x0EE#12 := by
        constructor <;> intro h <;> rw [h] at hw
        · exact hcls hw.symm
        · exact hret hw.symm
      exact ⟨by simp [Instr.wellFormed, sysOperandOk, hok], hw⟩

theorem encode_of_decode8 {w : Word} {i : Instr} (hg : fieldN1 w = 0x8#4) (h : decode8 w = .ok i) :
    i.wellFormed = true ∧ encode i = w := by
  unfold decode8 at h
  split at h <;> cases h <;> exact ⟨rfl, encXYN_of_fields hg ‹_›⟩

theorem encode_of_decodeE {w : Word} {i : Instr} (hg : fieldN1 w = 0xE#4) (h : decodeE w = .ok i) :
    i.wellFormed = true ∧ encode i = w := by
  unfold decodeE at h
  split at h <;> cases h <;> exact ⟨rfl, encXNN_of_fields hg ‹_›⟩

theorem encode_of_decodeF {w : Word} {i : Instr} (hg : fieldN1 w = 0xF#4) (h : decodeF w = .ok i) :
    i.wellFormed = true ∧ encode i = w := by
  unfold decodeF at h
  split at h <;> cases h <;> exact ⟨rfl, encXNN_of_fields hg ‹_›⟩

/-- The group left by the other fifteen (R75). -/
theorem nibble_eq_F_of_ne {g : Nibble} (h0 : g ≠ 0x0#4) (h1 : g ≠ 0x1#4) (h2 : g ≠ 0x2#4) (h3 : g ≠ 0x3#4) (h4 : g ≠ 0x4#4) (h5 : g ≠ 0x5#4)
    (h6 : g ≠ 0x6#4) (h7 : g ≠ 0x7#4) (h8 : g ≠ 0x8#4) (h9 : g ≠ 0x9#4) (hA : g ≠ 0xA#4) (hB : g ≠ 0xB#4) (hC : g ≠ 0xC#4) (hD : g ≠ 0xD#4)
    (hE : g ≠ 0xE#4) : g = 0xF#4 := by
  bv_omega

theorem encode_of_decode {w : Word} {i : Instr} (h : decode w = .ok i) : i.wellFormed = true ∧ encode i = w := by
  unfold decode at h
  split at h
  case h_1 hg => cases h; exact encode_decode0 hg
  case h_2 hg | h_3 hg | h_11 hg | h_12 hg => cases h; exact ⟨rfl, encNNN_of_fields hg⟩
  case h_4 hg | h_5 hg | h_7 hg | h_8 hg | h_13 hg => cases h; exact ⟨rfl, encXNN_of_fields hg rfl⟩
  case h_14 hg => cases h; exact ⟨rfl, encXYN_of_fields hg rfl⟩
  case h_6 hg | h_10 hg =>
    split at h <;> cases h
    exact ⟨rfl, encXYN_of_fields hg ‹_›⟩
  case h_9 hg => exact encode_of_decode8 hg h
  case h_15 hg => exact encode_of_decodeE hg h
  case h_16 => exact encode_of_decodeF (by apply nibble_eq_F_of_ne <;> assumption) h

/-! ## Rejected words -/

/-- The word is of the illegal class of the reason (R76); no word is truncated. -/
def InIllegalClass (w : Word) : Reject → Prop
  | .illegal5 => fieldN1 w = 0x5#4 ∧ fieldN w ∉ [0x0#4]
  | .illegal8 => fieldN1 w = 0x8#4 ∧ fieldN w ∉ [0x0#4, 0x1#4, 0x2#4, 0x3#4, 0x4#4, 0x5#4, 0x6#4, 0x7#4, 0xE#4]
  | .illegal9 => fieldN1 w = 0x9#4 ∧ fieldN w ∉ [0x0#4]
  | .illegalE => fieldN1 w = 0xE#4 ∧ fieldNN w ∉ [0x9E#8, 0xA1#8]
  | .illegalF => fieldN1 w = 0xF#4 ∧ fieldNN w ∉ [0x07#8, 0x0A#8, 0x15#8, 0x18#8, 0x1E#8, 0x29#8, 0x33#8, 0x55#8, 0x65#8]
  | .truncated => False

theorem decode8_error {w : Word} {e : Reject} (hg : fieldN1 w = 0x8#4) (h : decode8 w = .error e) : InIllegalClass w e := by
  unfold decode8 at h
  split at h <;> cases h
  exact ⟨hg, by simp_all⟩

theorem decodeE_error {w : Word} {e : Reject} (hg : fieldN1 w = 0xE#4) (h : decodeE w = .error e) : InIllegalClass w e := by
  unfold decodeE at h
  split at h <;> cases h
  exact ⟨hg, by simp_all⟩

theorem decodeF_error {w : Word} {e : Reject} (hg : fieldN1 w = 0xF#4) (h : decodeF w = .error e) : InIllegalClass w e := by
  unfold decodeF at h
  split at h <;> cases h
  exact ⟨hg, by simp_all⟩

theorem decode_error {w : Word} {e : Reject} (h : decode w = .error e) : InIllegalClass w e := by
  unfold decode at h
  split at h
  case h_6 hg | h_10 hg =>
    split at h <;> cases h
    exact ⟨hg, by simpa⟩
  case h_9 hg => exact decode8_error hg h
  case h_15 hg => exact decodeE_error hg h
  case h_16 => exact decodeF_error (by apply nibble_eq_F_of_ne <;> assumption) h
  all_goals cases h

theorem decode_of_inIllegalClass {w : Word} {e : Reject} (h : InIllegalClass w e) : decode w = .error e := by
  cases e with
  | truncated => cases h
  | illegal5 | illegal8 | illegal9 | illegalE | illegalF =>
    obtain ⟨hg, hop⟩ := h
    simp_all [decode, decode8, decodeE, decodeF]

theorem decode_eq_error_iff {w : Word} {e : Reject} : decode w = .error e ↔ InIllegalClass w e :=
  ⟨decode_error, decode_of_inIllegalClass⟩

/-! The conditions of an illegal class as quotients and remainders of the word. -/

theorem fieldN1_eq_iff {w : Word} {g : Nibble} : fieldN1 w = g ↔ w.toNat / 4096 = g.toNat := by
  rw [← BitVec.toNat_inj, fieldN1_toNat]

theorem fieldN_mem_iff {w : Word} {ops : List Nibble} : fieldN w ∈ ops ↔ w.toNat % 16 ∈ ops.map BitVec.toNat := by
  rw [← fieldN_toNat, List.mem_map_of_injective BitVec.toNat_injective]

theorem fieldNN_mem_iff {w : Word} {ops : List Byte} : fieldNN w ∈ ops ↔ w.toNat % 256 ∈ ops.map BitVec.toNat := by
  rw [← fieldNN_toNat, List.mem_map_of_injective BitVec.toNat_injective]

/-! ## The rows a word fits -/

theorem matchesWord_iff {r : OpcodeRow} {w : Word} : r.matchesWord w = true ↔ w &&& r.mask = r.pattern := beq_iff_eq

open Laws.MatchesRow in
theorem row_matchesWord_encode (i : Instr) : i.row.matchesWord (encode i) = true := by
  cases i with
  | cls => exact cls
  | ret => exact ret
  | sys nnn => exact sys nnn
  | jp nnn => exact jp nnn
  | call nnn => exact call nnn
  | seImm x nn => exact seImm x nn
  | sneImm x nn => exact sneImm x nn
  | seReg x y => exact seReg x y
  | ldImm x nn => exact ldImm x nn
  | addImm x nn => exact addImm x nn
  | ldReg x y => exact ldReg x y
  | orReg x y => exact orReg x y
  | andReg x y => exact andReg x y
  | xorReg x y => exact xorReg x y
  | addReg x y => exact addReg x y
  | sub x y => exact sub x y
  | shr x y => exact shr x y
  | subn x y => exact subn x y
  | shl x y => exact shl x y
  | sneReg x y => exact sneReg x y
  | ldI nnn => exact ldI nnn
  | jpV0 nnn => exact jpV0 nnn
  | rnd x nn => exact rnd x nn
  | drw x y n => exact drw x y n
  | skp x => exact skp x
  | sknp x => exact sknp x
  | ldVxDt x => exact ldVxDt x
  | ldVxK x => exact ldVxK x
  | ldDtVx x => exact ldDtVx x
  | ldStVx x => exact ldStVx x
  | addI x => exact addI x
  | ldF x => exact ldF x
  | ldB x => exact ldB x
  | ldMemVx x => exact ldMemVx x
  | ldVxMem x => exact ldVxMem x

theorem row_mem_tableRows (i : Instr) : i.row ∈ tableRows := by
  have h : tableRows.contains i.row = true := by cases i <;> rfl
  exact List.contains_iff_mem.mp h

/-- The rows' matches agree on the bits that both masks keep: what a word common to both asks for. -/
def OpcodeRow.Overlaps (r r' : OpcodeRow) : Prop := r.pattern &&& r'.mask = r'.pattern &&& r.mask

theorem overlaps_of_matchesWord {r r' : OpcodeRow} {w : Word} (h : r.matchesWord w = true) (h' : r'.matchesWord w = true) : r.Overlaps r' := by
  rw [matchesWord_iff] at h h'
  calc r.pattern &&& r'.mask
    _ = w &&& r.mask &&& r'.mask := by rw [h]
    _ = w &&& r'.mask &&& r.mask := by rw [BitVec.and_assoc, BitVec.and_comm r.mask, ← BitVec.and_assoc]
    _ = r'.pattern &&& r.mask := by rw [h']

/-- The rows of CLS and RET, which fix all sixteen bits, overlap that of SYS, and no other rows overlap (R75). -/
theorem overlaps_only_at_sys : ∀ r ∈ tableRows, ∀ r' ∈ tableRows, r.Overlaps r' →
    r = r' ∨ (r ∈ [Instr.cls.row, Instr.ret.row] ∧ r' = (Instr.sys 0).row) ∨ (r = (Instr.sys 0).row ∧ r' ∈ [Instr.cls.row, Instr.ret.row]) := by
  unfold OpcodeRow.Overlaps
  decide

theorem word_of_matches_cls_or_ret {r : OpcodeRow} {w : Word} (hr : r ∈ [Instr.cls.row, Instr.ret.row]) (h : r.matchesWord w = true) :
    w = 0x00E0#16 ∨ w = 0x00EE#16 := by
  have hw : w &&& 0xFFFF#16 = w := BitVec.and_allOnes
  rw [matchesWord_iff] at h
  simp only [List.mem_cons, List.not_mem_nil, or_false] at hr
  rcases hr with rfl | rfl
  · exact .inl (hw.symm.trans h)
  · exact .inr (hw.symm.trans h)

theorem eq_or_sys_of_matchesWord {r r' : OpcodeRow} {w : Word} (hr : r ∈ tableRows) (hr' : r' ∈ tableRows) (h : r.matchesWord w = true)
    (h' : r'.matchesWord w = true) :
    r = r' ∨ ((r = (Instr.sys 0).row ∨ r' = (Instr.sys 0).row) ∧ (w = 0x00E0#16 ∨ w = 0x00EE#16)) := by
  rcases overlaps_only_at_sys r hr r' hr' (overlaps_of_matchesWord h h') with heq | ⟨hm, hs⟩ | ⟨hs, hm⟩
  · exact .inl heq
  · exact .inr ⟨.inr hs, word_of_matches_cls_or_ret hm h⟩
  · exact .inr ⟨.inl hs, word_of_matches_cls_or_ret hm h'⟩

/-! ## No row fits an illegal word -/

theorem fieldN1_and (a b : Word) : fieldN1 (a &&& b) = fieldN1 a &&& fieldN1 b := BitVec.extractLsb'_and

theorem fieldN_and (a b : Word) : fieldN (a &&& b) = fieldN a &&& fieldN b := BitVec.extractLsb'_and

theorem fieldNN_and (a b : Word) : fieldNN (a &&& b) = fieldNN a &&& fieldNN b := BitVec.extractLsb'_and

/-! A field that the row's mask keeps whole is the row's own. -/

section
variable {r : OpcodeRow} {w : Word} (h : r.matchesWord w = true)
include h

theorem fieldN1_of_matchesWord (hmask : fieldN1 r.mask = 0xF#4) : fieldN1 w = fieldN1 r.pattern := by
  rw [← matchesWord_iff.mp h, fieldN1_and, hmask]
  exact BitVec.and_allOnes.symm

theorem fieldN_of_matchesWord (hmask : fieldN r.mask = 0xF#4) : fieldN w = fieldN r.pattern := by
  rw [← matchesWord_iff.mp h, fieldN_and, hmask]
  exact BitVec.and_allOnes.symm

theorem fieldNN_of_matchesWord (hmask : fieldNN r.mask = 0xFF#8) : fieldNN w = fieldNN r.pattern := by
  rw [← matchesWord_iff.mp h, fieldNN_and, hmask]
  exact BitVec.and_allOnes.symm

/-- Every row fixes the group. -/
theorem fieldN1_of_tableRow (hr : r ∈ tableRows) : fieldN1 w = fieldN1 r.pattern := by
  have hmask : ∀ r ∈ tableRows, fieldN1 r.mask = 0xF#4 := by decide
  exact fieldN1_of_matchesWord h (hmask r hr)

/-- Where the rows of a group all fix the trailing nibble, a word of the group that fits one ends in that row's. -/
theorem fieldN_mem_of_tableRow {g : Nibble} {ops : List Nibble}
    (hrows : ∀ r ∈ tableRows, fieldN1 r.pattern = g → fieldN r.mask = 0xF#4 ∧ fieldN r.pattern ∈ ops)
    (hr : r ∈ tableRows) (hg : fieldN1 w = g) : fieldN w ∈ ops := by
  obtain ⟨hmask, hop⟩ := hrows r hr ((fieldN1_of_tableRow h hr).symm.trans hg)
  rwa [fieldN_of_matchesWord h hmask]

/-- The same of the trailing byte. -/
theorem fieldNN_mem_of_tableRow {g : Nibble} {ops : List Byte}
    (hrows : ∀ r ∈ tableRows, fieldN1 r.pattern = g → fieldNN r.mask = 0xFF#8 ∧ fieldNN r.pattern ∈ ops)
    (hr : r ∈ tableRows) (hg : fieldN1 w = g) : fieldNN w ∈ ops := by
  obtain ⟨hmask, hop⟩ := hrows r hr ((fieldN1_of_tableRow h hr).symm.trans hg)
  rwa [fieldNN_of_matchesWord h hmask]

end

theorem not_matchesWord_of_inIllegalClass {w : Word} {e : Reject} (he : InIllegalClass w e) {r : OpcodeRow} (hr : r ∈ tableRows) :
    ¬ r.matchesWord w = true := by
  intro h
  cases e with
  | truncated => exact he
  | illegal5 | illegal8 | illegal9 =>
    obtain ⟨hg, hop⟩ := he
    exact hop (fieldN_mem_of_tableRow h (by decide) hr hg)
  | illegalE | illegalF =>
    obtain ⟨hg, hop⟩ := he
    exact hop (fieldNN_mem_of_tableRow h (by decide) hr hg)

/-! ## The first row a word fits -/

/-- But for the words of CLS and RET, a word fits the row of its instruction alone. -/
theorem find_row_encode {i : Instr} (hne : ¬ (encode i = 0x00E0#16 ∨ encode i = 0x00EE#16)) :
    tableRows.find? (fun r => r.matchesWord (encode i)) = some i.row := by
  have hmem := row_mem_tableRows i
  have hrow := row_matchesWord_encode i
  cases hfind : tableRows.find? (fun r => r.matchesWord (encode i)) with
  | none => exact absurd hrow (List.find?_eq_none.mp hfind _ hmem)
  | some r =>
    have hr : r ∈ tableRows := List.mem_of_find?_eq_some hfind
    have h : r.matchesWord (encode i) = true := List.find?_some (p := fun r : OpcodeRow => r.matchesWord (encode i)) hfind
    have heq : r = i.row := (eq_or_sys_of_matchesWord hr hmem h hrow).resolve_right fun hs => hne hs.2
    rw [heq]

theorem find_row_of_decode_error {w : Word} {e : Reject} (h : decode w = .error e) :
    tableRows.find? (fun r => r.matchesWord w) = none :=
  List.find?_eq_none.mpr fun _ hr => not_matchesWord_of_inIllegalClass (decode_error h) hr

end Sys2Proof
end

section
/-! PROOFS. The obligations of 30_encoding.md. -/

namespace Sys2Proof.Safety

/-- Settles O1, constructor by constructor. -/
theorem decodeEncodeRoundTrip : Obligations.DecodeEncodeRoundTrip :=
  fun _ h => decode_encode h

/-- Settles O2, group by group. -/
theorem decodedWordsEncodeBack : Obligations.DecodedWordsEncodeBack :=
  fun _ _ h => encode_of_decode h

/-- Settles O3: a rejected word fits no row, and a decoded one fits its own instruction's row and, but for the words of CLS and RET,
no other. -/
theorem decodeFollowsOpcodeTable : Obligations.DecodeFollowsOpcodeTable := by
  intro w
  by_cases hw : w = 0x00E0#16 ∨ w = 0x00EE#16
  · rcases hw with rfl | rfl <;> decide
  · cases hd : decode w with
    | error e => rw [find_row_of_decode_error hd]; rfl
    | ok i =>
      obtain ⟨-, rfl⟩ := encode_of_decode hd
      rw [find_row_encode hw]; rfl

/-- Settles O4: rows that share a word overlap on the bits that both fix. -/
theorem opcodeRowsOverlapOnlyAtSys : Obligations.OpcodeRowsOverlapOnlyAtSys := by
  intro w r r' hr hr' hne h h'
  obtain ⟨hsys, hw⟩ := (eq_or_sys_of_matchesWord hr hr' h h').resolve_left hne
  exact ⟨hsys.imp (congrArg OpcodeRow.mnemonic) (congrArg OpcodeRow.mnemonic), hw⟩

/-- Settles O5: the rejected words of each reason are those of its class. -/
theorem illegalWordsAreTheFiveClasses : Obligations.IllegalWordsAreTheFiveClasses := by
  intro w
  have h8 : ∀ k < 16, k ∉ [0, 1, 2, 3, 4, 5, 6, 7, 0xE] ↔ 8 ≤ k ∧ k ≠ 0xE := by decide
  simp only [decode_eq_error_iff, InIllegalClass, fieldN1_eq_iff, fieldN_mem_iff, fieldNN_mem_iff]
  refine ⟨by simp, ?_, by simp, Iff.rfl, Iff.rfl, decode_error⟩
  exact and_congr_right' (h8 (w.toNat % 16) (Nat.mod_lt _ (by decide)))

/-- Settles O7, each field by its value. -/
theorem fieldsAndImmediatesMergeBigEndian : Obligations.FieldsAndImmediatesMergeBigEndian := by
  intro w
  refine ⟨fieldN1_toNat w, fieldX_toNat w, fieldY_toNat w, fieldN_toNat w, ?_, ?_, addrOperand_toNat _⟩
  · rw [fieldNN_toNat, fieldY_toNat, fieldN_toNat]
    omega
  · rw [fieldNNN_toNat, fieldX_toNat, fieldY_toNat, fieldN_toNat]
    omega

/-- Settles O6: each word is the encoding of its instruction. -/
theorem writtenOutWordsDecode : Obligations.WrittenOutWordsDecode :=
  ⟨decode_encode (i := .call 0x300) rfl, decode_encode (i := .seImm 0xA 0x42) rfl, decode_encode (i := .shl 0x1 0x2) rfl,
    decode_encode (i := .ldMemVx 0x2) rfl, decode_encode (i := .drw 0x1 0x2 0x5) rfl, decode_encode (i := .sknp 0x4) rfl⟩

end Sys2Proof.Safety
end

section
/-! PROOFS. A step as a whole: how its front decides it, what it latches, and how a run of steps goes on from one (40_cycle.md R100 to R107). -/

namespace Sys2Proof.Safety

open Sys2Proof.Machine

/-! ## The front decides the step -/

theorem step_of_front_ends {s t : State} (h : s.front = .ends t) : step s = .next t := by
  rw [step, h]

theorem step_of_front_runs {s : State} {i : Instr} (h : s.front = .runs i) : step s = exec i s := by
  rw [step, h]

/-- A latched fault ends the Step where it stands (60_exceptions.md R303). -/
theorem step_latched {s : State} (h : s.fault ≠ none) : step s = .next s := by
  obtain ⟨r, hr⟩ := Option.ne_none_iff_exists'.mp h
  exact step_of_front_ends (by simp [State.front, hr])

/-- A fetch that reaches 4096 raises at its first address there (40_cycle.md R101). -/
theorem front_outside {s : State} (hf : s.fault = none) (hp : Config.memSize ≤ s.pc.toNat + 1) :
    s.front = .ends (s.takeFault ⟨.memoryOutOfRange, some (max s.pc.toNat Config.memSize)⟩ none) := by
  cases hs : s.front with
  | runs i =>
    obtain ⟨-, hp', -⟩ := front_runs hs
    omega
  | ends t =>
    rcases front_ends hs with ⟨hne, -⟩ | ⟨-, -, rfl⟩ | ⟨-, hp', -⟩
    · exact absurd hf hne
    · rfl
    · omega

theorem front_decodes {s : State} {i : Instr} (hf : s.fault = none) (hp : s.pc.toNat + 1 < Config.memSize)
    (hd : decode s.fetchWord = .ok i) : s.front = .runs i := by
  rw [front_running hf hp, hd]

theorem front_rejects {s : State} {e : Reject} (hf : s.fault = none) (hp : s.pc.toNat + 1 < Config.memSize)
    (hd : decode s.fetchWord = .error e) : s.front = .ends (s.takeFault ⟨.decodeFailure, none⟩ (some s.fetchWord)) := by
  rw [front_running hf hp, hd]

/-! ## Every step answers a next state -/

/-- Every meaning is a next state as it stands, or ends in `runOrFault`, which is one (log entry 6). -/
theorem exec_answers_next (i : Instr) (s : State) : ∃ t, exec i s = .next t := by
  cases i <;> exact ⟨_, rfl⟩

theorem step_answers_next (s : State) : ∃ t, step s = .next t := by
  cases hs : s.front with
  | ends t => exact ⟨t, step_of_front_ends hs⟩
  | runs i =>
    rw [step_of_front_runs hs]
    exact exec_answers_next i s

/-! ## What a step latches -/

/-- The latch after a step that found it clear: clear still, after an instruction that was executed; or set by a fault entry with the
fetched word, if there was one, and an address exactly for the two memory faults (60_exceptions.md R301, R302). -/
theorem step_latch_cases {s t : State} (hf : s.fault = none) (h : step s = .next t) :
    (t.fault = none ∧ ∃ i, s.front = .runs i ∧ exec i s = .next t)
    ∨ ∃ r, t = s.takeFault r (if s.pc.toNat + 1 < Config.memSize then some s.fetchWord else none)
        ∧ (r.addr.isSome = true ↔ r.kind = .memoryOutOfRange ∨ r.kind = .readOnlyWrite) := by
  rcases step_cases h with he | ⟨i, hr, he⟩
  · rcases front_ends he with ⟨hne, -⟩ | ⟨-, hp, rfl⟩ | ⟨-, hp, -, rfl⟩
    · exact absurd hf hne
    · exact .inr ⟨_, by rw [if_neg (by omega)], by simp⟩
    · exact .inr ⟨_, by rw [if_pos hp], by simp⟩
  · rcases exec_latch_cases he with hl | ⟨r, rfl, hr'⟩
    · exact .inl ⟨hl.trans hf, i, hr, he⟩
    · obtain ⟨-, hp, hd⟩ := front_runs hr
      obtain ⟨-, henc⟩ := encode_of_decode hd
      exact .inr ⟨r, by rw [if_pos hp, henc], hr'⟩

/-- A fault entry, with a word or without one, as the statements speak of it. -/
theorem takeFault_latches (s : State) (r : Raise) (w : Option Word) :
    Latches s (s.takeFault r w) r.kind (w.map BitVec.toNat) r.addr :=
  ⟨rfl, within_takeFault rfl r w, _, rfl, rfl, rfl, rfl, rfl⟩

/-! ## Runs -/

/-- A run of any machine behind the host's interface goes on from the state its first step answers. -/
theorem core_run_succ {M : Host.Core} {s u : M.State} (h : M.step s = .next u) (n : Nat) : M.run (n + 1) s = M.run n u := by
  rw [Host.Core.run, h]

theorem run_succ {s u : State} (h : step s = .next u) (n : Nat) : core.run (n + 1) s = core.run n u := core_run_succ (M := core) h n

/-- A state that its step answers is answered by any number of steps. -/
theorem run_of_step_self {s : State} (h : step s = .next s) (n : Nat) : core.run n s = .next s := by
  induction n with
  | zero => rfl
  | succ n ih => rw [run_succ h, ih]

theorem safeRun_succ {s u : State} (h : step s = .next u) (n : Nat) : SafeRun (n + 1) s ↔ SafeRun n u := by
  rw [SafeRun, SafeRun, run_succ h]

/-- A run cannot clear a latch, so one that ends clear began clear. -/
theorem SafeRun.starts_clear {s : State} {n : Nat} (h : SafeRun n s) : s.fault = none := by
  by_contra hne
  obtain ⟨t, ht, hclear⟩ := h
  cases (run_of_step_self (step_latched hne) n).symm.trans ht
  exact hne hclear

/-- The first steps of a safe run are a safe run. -/
theorem SafeRun.of_le {s : State} {m n : Nat} (h : SafeRun m s) (hnm : n ≤ m) : SafeRun n s := by
  induction n generalizing s m with
  | zero => exact ⟨s, rfl, h.starts_clear⟩
  | succ n ih =>
    obtain ⟨k, rfl⟩ := Nat.exists_eq_add_of_le' hnm
    obtain ⟨u, hu⟩ := step_answers_next s
    rw [safeRun_succ hu]
    exact ih ((safeRun_succ hu (k + n)).mp h) (Nat.le_add_left n k)

/-! ## Where PC goes -/

/-- Where a fetch can be, PC + 2 does not wrap (40_cycle.md R104). -/
theorem pc_add_two_toNat {s : State} (hp : s.pc.toNat + 1 < Config.memSize) : (s.pc + 2#16).toNat = s.pc.toNat + 2 := by
  replace hp : s.pc.toNat + 1 < 4096 := hp
  bv_omega

/-- An instruction that sets no PC of its own goes on to PC + 2, or raises (R104, R107). -/
theorem exec_advances {i : Instr} {s t : State} (hi : setsPc i = false) (h : exec i s = .next t) :
    t.pc = s.pc + 2#16 ∨ ∃ r w, t = s.takeFault r w := by
  cases i with
  | ret | jp | call | jpV0 | seImm | sneImm | seReg | sneReg | skp | sknp => cases hi
  | sys nnn =>
    rcases sysPolicy_cases h with ⟨-, rfl⟩ | ⟨-, rfl⟩
    · exact .inr ⟨_, _, rfl⟩
    · exact .inl rfl
  | drw | ldB | ldMemVx | ldVxMem =>
    rcases runOrFault_guarded_cases h with ⟨-, rfl⟩ | ⟨r, -, rfl⟩
    · exact .inl rfl
    · exact .inr ⟨_, _, rfl⟩
  | ldVxK => cases h; exact .inr ⟨_, _, rfl⟩
  | addReg | sub | shr | subn | shl => cases h; left; simp
  | _ => cases h; exact .inl rfl

theorem wideReg_toNat (s : State) (x : Nibble) : (wideReg s x).toNat = (s.reg x).toNat := by
  have := (s.reg x).isLt
  simp [wideReg]
  omega

/-- The target of BNNN is a sum of natural numbers: 0xFFF + 0xFF is far below 2^16 (41_control_flow.md R123). -/
theorem jpV0_target_toNat (s : State) (nnn : Addr12) : (addrOperand nnn + wideReg s 0#4).toNat = nnn.toNat + (s.reg 0#4).toNat := by
  have := nnn.isLt
  have := (s.reg 0#4).isLt
  rw [BitVec.toNat_add, addrOperand_toNat, wideReg_toNat]
  omega

/-! ## More of what a frame keeps -/

section
variable {f : Touches} {s t : State} (h : Within f s t)
include h

theorem Within.dt_eq (hf : f.dt = false) : t.dt = s.dt := by
  obtain ⟨-, -, -, dt, -⟩ := h
  exact dt hf

theorem Within.st_eq (hf : f.st = false) : t.st = s.st := by
  obtain ⟨-, -, -, -, st, -⟩ := h
  exact st hf

theorem Within.keyDown_eq {k : Nibble} (hf : f.key k = false) : t.keyDown k = s.keyDown k := by
  obtain ⟨-, -, -, -, -, key, -⟩ := h
  exact key k hf

theorem Within.p_eq (hf : f.prng = false) : t.p = s.p := by
  obtain ⟨-, -, -, -, -, -, -, -, prng, -⟩ := h
  exact prng hf

end

/-! ## The one instruction whose footprint holds DT, ST or P -/

theorem ldDtVx_of_footprint_dt {s : State} {i : Instr} (h : (footprint s i).dt = true) : ∃ x, i = .ldDtVx x := by
  cases i with
  | ldDtVx x => exact ⟨x, rfl⟩
  | _ => cases h

theorem ldStVx_of_footprint_st {s : State} {i : Instr} (h : (footprint s i).st = true) : ∃ x, i = .ldStVx x := by
  cases i with
  | ldStVx x => exact ⟨x, rfl⟩
  | _ => cases h

theorem rnd_of_footprint_prng {s : State} {i : Instr} (h : (footprint s i).prng = true) : ∃ x nn, i = .rnd x nn := by
  cases i with
  | rnd x nn => exact ⟨x, nn, rfl⟩
  | _ => cases h

/-- CXNN draws once and raises nothing (46_input_timers_random.md R271). -/
theorem exec_rnd_draws {x : Nibble} {nn : Byte} {s t : State} (h : exec (.rnd x nn) s = .next t) :
    t.p = (Config.prngNext s.p).1 ∧ t.fault = s.fault := by
  cases h
  exact ⟨rfl, rfl⟩

end Sys2Proof.Safety
end

section
/-! PROOFS. The obligations of 40_cycle.md. -/

namespace Sys2Proof.Safety

open Sys2Proof.Machine

/-! ## The latch -/

/-- Settles O9: a latched state is a fixed point of the step, and a run that ends clear is clear all along. -/
theorem latchedBlockStaysPut : Obligations.LatchedBlockStaysPut :=
  ⟨fun _ hf n => run_of_step_self (step_latched hf) n, fun _ _ _ hnm h => h.of_le hnm⟩

/-- Settles O12, from the second case of `step_latch_cases`. -/
theorem faultingStepChangesOnlyLatch : Obligations.FaultingStepChangesOnlyLatch := by
  intro s t rec hf h hrec
  rcases step_latch_cases hf h with ⟨hclear, -⟩ | ⟨r, rfl, haddr⟩
  · cases hclear.symm.trans hrec
  · cases hrec
    exact ⟨rfl, rfl, rfl, haddr⟩

/-- Settles O13: execution is total, a step that ends clear is in the first case of `step_latch_cases`, and a jump to itself is a fixed
point of the step. -/
theorem blockNeverStopsByItself : Obligations.BlockNeverStopsByItself := by
  refine ⟨step_answers_next, ?_, ?_⟩
  · intro s t hf h ht
    rcases step_latch_cases hf h with ⟨-, hexec⟩ | ⟨r, rfl, -⟩
    · exact hexec
    · cases ht
  · intro s nnn hf hp hpc hd n
    have htarget : addrOperand nnn = s.pc := BitVec.eq_of_toNat_eq ((addrOperand_toNat nnn).trans hpc)
    have hself : step s = .next s := calc
      step s = exec (.jp nnn) s := step_of_front_runs (front_decodes hf hp hd)
      _ = .next (s.setPc (addrOperand nnn)) := rfl
      _ = .next s := by rw [htarget]; rfl
    exact run_of_step_self hself n

/-! ## Timers, keys and random numbers -/

/-- Settles O17: no footprint holds a key, and FX15 and FX18 alone hold DT and ST. -/
theorem timersAndKeysChangeOnlyByTheirInstructions : Obligations.TimersAndKeysChangeOnlyByTheirInstructions := by
  intro s t h
  rcases step_within h with hw | ⟨i, hr, he, hw⟩
  · exact ⟨fun k => hw.keyDown_eq rfl, .inl (hw.dt_eq rfl), .inl (hw.st_eq rfl)⟩
  · refine ⟨fun k => hw.keyDown_eq (by cases i <;> rfl), ?_, ?_⟩
    · cases hx : (footprint s i).dt with
      | false => exact .inl (hw.dt_eq hx)
      | true =>
        obtain ⟨x, rfl⟩ := ldDtVx_of_footprint_dt hx
        cases he
        exact .inr ⟨x, hr, rfl⟩
    · cases hx : (footprint s i).st with
      | false => exact .inl (hw.st_eq hx)
      | true =>
        obtain ⟨x, rfl⟩ := ldStVx_of_footprint_st hx
        cases he
        exact .inr ⟨x, hr, rfl⟩

/-- Any step but one that executes CXNN leaves the lanes. -/
theorem step_keeps_p {s t : State} (h : step s = .next t) (hno : ∀ x nn, s.front ≠ .runs (.rnd x nn)) : t.p = s.p := by
  rcases step_within h with hw | ⟨i, hr, -, hw⟩
  · exact hw.p_eq rfl
  · refine hw.p_eq (eq_false_of_ne_true fun hx => ?_)
    obtain ⟨x, nn, rfl⟩ := rnd_of_footprint_prng hx
    exact hno x nn hr

/-- A step that executes CXNN makes one draw, and ends with the latch clear. -/
theorem step_draws {x : Nibble} {nn : Byte} {s t : State} (h : step s = .next t) (hr : s.front = .runs (.rnd x nn)) :
    t.p = (Config.prngNext s.p).1 ∧ t.fault = none := by
  obtain ⟨hf, -, -⟩ := front_runs hr
  obtain ⟨hp, hl⟩ := exec_rnd_draws ((step_of_front_runs hr).symm.trans h)
  exact ⟨hp, hl.trans hf⟩

/-- Settles O18: CXNN draws and never faults, and no other step touches the lanes. -/
theorem onlyRandomDrawsAdvanceThePrng : Obligations.OnlyRandomDrawsAdvanceThePrng := by
  intro s t h
  refine ⟨fun x nn hr => (step_draws h hr).1, step_keeps_p h, fun hfault => step_keeps_p h fun x nn hr => ?_⟩
  exact hfault (step_draws h hr).2

/-! ## The next PC -/

/-- Settles O26: the fetch was inside memory, so PC + 2 does not wrap. -/
theorem defaultNextPcIsPcPlusTwo : Obligations.DefaultNextPcIsPcPlusTwo := by
  intro s t i _ hr hi h ht
  obtain ⟨-, hp, -⟩ := front_runs hr
  rw [step_of_front_runs hr] at h
  rcases exec_advances hi h with hpc | ⟨r, w, rfl⟩
  · rw [hpc, pc_add_two_toNat hp]
  · cases ht

/-- Settles O27: each transfer is a move of PC, after a change of the stack for CALL and RET. -/
theorem transfersSetPcToTheirTarget : Obligations.TransfersSetPcToTheirTarget := by
  intro s nnn
  refine ⟨⟨_, rfl, addrOperand_toNat nnn, within_setPc _ _ _⟩, ⟨_, rfl, jpV0_target_toNat s nnn, within_setPc _ _ _⟩, ?_, ?_⟩
  · intro hsp
    obtain ⟨t, ht⟩ := exec_answers_next (.call nnn) s
    rcases execCall_cases ht with ⟨hs, rfl⟩ | ⟨hfull, -⟩
    · exact ⟨_, ht, addrOperand_toNat nnn, (within_setStack rfl _ _).trans (within_setPc _ _ _)⟩
    · exact absurd hfull hsp.ne
  · intro k hk
    obtain ⟨t, ht⟩ := exec_answers_next .ret s
    rcases execRet_cases ht with ⟨j, hj, rfl⟩ | ⟨hempty, -⟩
    · have hjk : j = k := Fin.ext (Nat.succ.inj (hj.symm.trans hk))
      exact ⟨_, ht, congrArg s.stack.get hjk, (within_setStack rfl _ _).trans (within_setPc _ _ _)⟩
    · cases hempty.symm.trans hk

/-! ## Fetch and decode -/

/-- Settles O8: the word is the fetched one, for both are the same number. -/
theorem stepRunsDecodedInstruction : Obligations.StepRunsDecodedInstruction := by
  intro s w i hf hp hw hd
  have hfetch : w = s.fetchWord := BitVec.eq_of_toNat_eq (hw.trans (wordOfBytes_toNat _ _).symm)
  subst hfetch
  exact step_of_front_runs (front_decodes hf hp hd)

/-- Settles O10: the front ends the step with the fault of the fetch. -/
theorem fetchOutsideMemoryLatches : Obligations.FetchOutsideMemoryLatches :=
  fun s hf hp => ⟨_, step_of_front_ends (front_outside hf (Nat.succ_le_succ hp)), takeFault_latches s _ _⟩

/-- Settles O11: the front ends the step with the fault of the decode. -/
theorem illegalWordLatchesDecodeFailure : Obligations.IllegalWordLatchesDecodeFailure :=
  fun s _ hf hp hd => ⟨_, step_of_front_ends (front_rejects hf hp hd), takeFault_latches s _ _⟩

end Sys2Proof.Safety
end

section
/-! PROOFS. What CALL, RET and SYS answer, in each of their cases (41_control_flow.md R120, R121, R124). -/

namespace Sys2Proof.Safety

open Sys2Proof.Machine

/-- CALL with entry k the first free one: PC + 2 goes into that entry alone (10_state.md R25). -/
theorem exec_call_pushes {nnn : Addr12} {s t : State} {k : Fin 16} (h : exec (.call nnn) s = .next t) (hk : s.sp.val = k.val) :
    t.pc = addrOperand nnn ∧ t.sp.val = k.val + 1 ∧ t.stack.get k = s.pc + 2#16
      ∧ (∀ j : Fin 16, j ≠ k → t.stack.get j = s.stack.get j) ∧ Within { stack := true } s t := by
  rcases execCall_cases h with ⟨hs, rfl⟩ | ⟨hfull, -⟩
  · have hentry (j : Fin 16) : (s.stack.set s.sp.val (s.pc + 2#16) hs).get j = if s.sp.val = j.val then s.pc + 2#16 else s.stack.get j :=
      Vector.getElem_set hs j.isLt
    exact ⟨rfl, congrArg (· + 1) hk, (hentry k).trans (if_pos hk),
      fun j hj => (hentry j).trans (if_neg fun e => hj (Fin.ext (e.symm.trans hk))),
      (within_setStack rfl _ _).trans (within_setPc _ _ _)⟩
  · exact absurd (hk.symm.trans hfull) k.isLt.ne

/-- CALL with no entry free. -/
theorem exec_call_overflows {s : State} (nnn : Addr12) (hs : s.sp.val = Config.stackCap) :
    exec (.call nnn) s = .next (s.takeFault ⟨.stackOverflow, none⟩ (some (encode (.call nnn)))) := by
  rw [exec, execCall, push_full hs]
  rfl

/-- RET with entry k on top: PC takes it, and the entries stay as they are. -/
theorem exec_ret_pops {s t : State} {k : Fin 16} (h : exec .ret s = .next t) (hk : s.sp.val = k.val + 1) :
    t.pc = s.stack.get k ∧ t.sp.val = k.val ∧ (∀ j : Fin 16, t.stack.get j = s.stack.get j) ∧ Within { stack := true } s t := by
  rcases execRet_cases h with ⟨j, hj, rfl⟩ | ⟨hempty, -⟩
  · obtain rfl : j = k := Fin.ext (Nat.succ.inj (hj.symm.trans hk))
    exact ⟨rfl, rfl, fun _ => rfl, (within_setStack rfl _ _).trans (within_setPc _ _ _)⟩
  · cases hempty.symm.trans hk

/-- RET with no entry in use. -/
theorem exec_ret_underflows {s : State} (hs : s.sp.val = 0) :
    exec .ret s = .next (s.takeFault ⟨.stackUnderflow, none⟩ (some (encode .ret))) := by
  rw [exec, execRet, pop_empty hs]
  rfl

theorem encode_call_toNat (nnn : Addr12) : (encode (.call nnn)).toNat = 0x2000 + nnn.toNat := encNNN_toNat 0x2#4 nnn

theorem encode_sys_toNat (nnn : Addr12) : (encode (.sys nnn)).toNat = nnn.toNat :=
  (encNNN_toNat 0x0#4 nnn).trans (Nat.zero_add _)

end Sys2Proof.Safety
end

section
/-! PROOFS. The obligations of 41_control_flow.md. -/

namespace Sys2Proof.Safety

open Sys2Proof.Machine

/-- Settles O28, from what CALL does to a stack with a free entry. -/
theorem callPushesTheReturnAddress : Obligations.CallPushesTheReturnAddress := by
  intro nnn s k hk
  obtain ⟨t, ht⟩ := exec_answers_next (.call nnn) s
  obtain ⟨hpc, hpushed⟩ := exec_call_pushes ht hk
  exact ⟨t, ht, by rw [hpc, addrOperand_toNat], hpushed⟩

/-- Settles O29, from what RET does to a stack in use. -/
theorem returnPopsTheStack : Obligations.ReturnPopsTheStack := by
  intro s k hk
  obtain ⟨t, ht⟩ := exec_answers_next .ret s
  exact ⟨t, ht, exec_ret_pops ht hk⟩

/-- Settles O30: a full stack makes CALL a fault entry, an empty one RET. -/
theorem stackFaultsLatch : Obligations.StackFaultsLatch := by
  intro s
  constructor
  · intro nnn hs
    rw [← encode_call_toNat]
    exact ⟨_, exec_call_overflows nnn hs, takeFault_latches s _ _⟩
  · intro hs
    exact ⟨_, exec_ret_underflows hs, takeFault_latches s _ _⟩

/-- Settles O31: the entry RET pops is the one CALL pushed, and the two frames compose. -/
theorem callThenReturnComesBack : Obligations.CallThenReturnComesBack := by
  intro nnn s t u hs hcall hret
  obtain ⟨-, hdepth, hpushed, -, hwcall⟩ := exec_call_pushes (k := ⟨s.sp.val, hs⟩) hcall rfl
  obtain ⟨hpc, hsp, -, hwret⟩ := exec_ret_pops hret hdepth
  exact ⟨hpc.trans hpushed, Fin.ext hsp, hwcall.trans hwret⟩

/-- Settles O32, by the two values of the open parameter sys_policy. -/
theorem sysFollowsItsPolicy : Obligations.SysFollowsItsPolicy := by
  intro nnn s
  obtain ⟨t, ht⟩ := exec_answers_next (.sys nnn) s
  refine ⟨t, ht, ?_⟩
  rcases sysPolicy_cases ht with ⟨hp, rfl⟩ | ⟨hp, rfl⟩
  · rw [← encode_sys_toNat]
    exact .inl ⟨hp, takeFault_latches s _ _⟩
  · exact .inr ⟨hp, rfl, within_advance _ _⟩

end Sys2Proof.Safety
end

section
/-! PROOFS. The obligations of 42_skips.md. -/

namespace Sys2Proof.Safety

open Sys2Proof.Machine

/-! ## Where a skip moves PC (40_cycle.md R106) -/

/-- Both outcomes of a conditional skip as one offset, for any condition. -/
theorem skipIf_pc_add (s : State) (c : Bool) : (s.skipIf c).pc = s.pc + (if c = true then 4#16 else 2#16) :=
  (apply_ite (s.pc + ·) (c = true) 4#16 2#16).symm

/-- A skip on equal bytes, with the bytes compared as numbers. -/
theorem skipIf_beq_pc (s : State) (a b : Byte) :
    (s.skipIf (a == b)).pc = s.pc + (if a.toNat = b.toNat then 4#16 else 2#16) := by
  simp only [skipIf_pc_add, beq_iff_eq, BitVec.toNat_inj]

/-- A skip on different bytes, with the bytes compared as numbers. -/
theorem skipIf_bne_pc (s : State) (a b : Byte) :
    (s.skipIf (a != b)).pc = s.pc + (if a.toNat = b.toNat then 2#16 else 4#16) := by
  simp only [skipIf_pc_add, bne_iff_ne, BitVec.toNat_inj, ite_not]

/-- Settles O33: each of the four is a skip, which moves PC alone, on the equality or the difference of its two bytes. -/
theorem registerSkips : Obligations.RegisterSkips := fun x y nn s =>
  ⟨⟨_, rfl, skipIf_beq_pc s (s.reg x) nn, within_skipIf _ s _⟩,
    ⟨_, rfl, skipIf_bne_pc s (s.reg x) nn, within_skipIf _ s _⟩,
    ⟨_, rfl, skipIf_beq_pc s (s.reg x) (s.reg y), within_skipIf _ s _⟩,
    ⟨_, rfl, skipIf_bne_pc s (s.reg x) (s.reg y), within_skipIf _ s _⟩⟩

end Sys2Proof.Safety
end

section
/-! PROOFS. What the two shapes of an ALU instruction answer: one register written, or a result with its flag (43_alu.md, 40_cycle.md R109). -/

namespace Sys2Proof.Safety

open Sys2Proof.Machine

/-! ## A word by its value -/

/-- A word of group `g` given by its value, as the statements on single opcodes give it. -/
theorem eq_encXNN_of_toNat {w : Word} {g x : Nibble} {nn : Byte} {base : Nat} (h : w.toNat = base + 0x100 * x.toNat + nn.toNat)
    (hg : base = g.toNat * 0x1000) : w = encXNN g x nn := by
  apply BitVec.eq_of_toNat_eq
  rw [h, hg, encXNN_toNat, Nat.mul_comm 0x100]

/-! ## One register written -/

/-- An instruction that ends in one register write and the advance of PC: `P` is what is claimed of the byte written. -/
theorem answers_setReg {i : Instr} {s : State} {x : Nibble} {b : Byte} (P : Byte → Prop)
    (h : exec i s = .next (s.setReg x b).advance) (hb : P b) :
    ∃ t, exec i s = .next t ∧ P (t.reg x) ∧ t.pc = s.pc + 2#16 ∧ Within { regs := onlyReg x } s t := by
  refine ⟨_, h, ?_, rfl, (within_setReg (onlyReg_self x) b).trans (within_advance _ _)⟩
  rwa [advance_reg, reg_setReg_same]

/-! ## A result and its flag written -/

/-- WriteRF is what WroteRF says, for both values of flag_order. -/
theorem wroteRF_writeRF (s : State) (x : Nibble) (res flag : Byte) : WroteRF x res.toNat flag.toNat (s.writeRF x res flag) := by
  constructor
  · intro hx
    simp [writeRF_reg, hx]
  · rintro rfl
    cases horder : Config.flagOrder with
    | flagLast => exact .inl ⟨rfl, by rw [writeRF_flagLast horder, reg_setReg_same]⟩
    | resultLast => exact .inr ⟨rfl, by rw [writeRF_resultLast horder, reg_setReg_same]⟩

/-- An instruction that ends in WriteRF and the advance of PC, with its result and its flag as numbers. -/
theorem answers_writeRF {i : Instr} {s : State} {x : Nibble} {res flag : Byte} {r f : Nat}
    (h : exec i s = .next (s.writeRF x res flag).advance) (hr : res.toNat = r) (hf : flag.toNat = f) :
    ∃ t, exec i s = .next t ∧ t.pc = s.pc + 2#16 ∧ Within { regs := regAndFlag x } s t ∧ WroteRF x r f t := by
  subst hr hf
  exact ⟨_, h, by rw [advance_pc, writeRF_pc],
    (within_writeRF (regAndFlag_self x) (regAndFlag_regF x) res flag).trans (within_advance _ _), wroteRF_writeRF s x res flag⟩

/-! ## The results and the flags as numbers -/

theorem sub_toNat (a b : Byte) : (a - b).toNat = (a.toNat + 256 - b.toNat) % 256 := by
  rw [BitVec.toNat_sub]
  omega

theorem shiftRight_one_toNat (a : Byte) : (a >>> 1).toNat = a.toNat / 2 := by
  rw [BitVec.toNat_ushiftRight, Nat.shiftRight_one]

theorem shiftLeft_one_toNat (a : Byte) : (a <<< 1).toNat = a.toNat * 2 % 256 := by
  rw [BitVec.toNat_shiftLeft, Nat.shiftLeft_eq, pow_one]

theorem flagByte_toNat (b : Bool) : (flagByte b).toNat = b.toNat := by
  cases b <;> rfl

theorem flagByte_decide_toNat (p : Prop) [Decidable p] : (flagByte (decide p)).toNat = if p then 1 else 0 := by
  by_cases hp : p <;> simp [flagByte, hp]

theorem flagByte_carryOut_toNat (a b : Byte) : (flagByte (carryOut a b)).toNat = if 255 < a.toNat + b.toNat then 1 else 0 :=
  flagByte_decide_toNat _

theorem flagByte_noBorrow_toNat (a b : Byte) : (flagByte (noBorrow a b)).toNat = if b.toNat ≤ a.toNat then 1 else 0 :=
  flagByte_decide_toNat _

theorem flagByte_lowBit_toNat (a : Byte) : (flagByte (lowBit a)).toNat = a.toNat % 2 := by
  rw [flagByte_toNat, lowBit, BitVec.getLsbD, Nat.toNat_testBit, pow_zero, Nat.div_one]

theorem flagByte_highBit_toNat (a : Byte) : (flagByte (highBit a)).toNat = a.toNat / 128 := by
  rw [flagByte_toNat, highBit, BitVec.getLsbD, Nat.toNat_testBit]
  omega

/-- What holds of the shifts' operand holds of the register the open parameter shift_source names. -/
theorem shiftOperand_cases {s : State} {x y : Nibble} (P : Byte → Prop) (h : P (shiftOperand s x y)) :
    (Config.shiftSource = .vx ∧ P (s.reg x)) ∨ (Config.shiftSource = .vy ∧ P (s.reg y)) := by
  unfold shiftOperand at h
  split at h
  case h_1 hsource => exact .inl ⟨hsource, h⟩
  case h_2 hsource => exact .inr ⟨hsource, h⟩

end Sys2Proof.Safety
end

section
/-! PROOFS. The obligations of 43_alu.md. -/

namespace Sys2Proof.Safety

open Sys2Proof.Machine

/-- Settles O35: the word is the instruction's encoding, and the instruction writes the immediate. -/
theorem loadImmediateSetsTheRegister : Obligations.LoadImmediateSetsTheRegister := fun x nn _ =>
  ⟨fun _ hw => eq_encXNN_of_toNat (g := 0x6#4) hw rfl ▸ decode_encode (i := .ldImm x nn) rfl, answers_setReg (· = nn) rfl rfl⟩

/-- Settles O36: the word is the instruction's encoding, and the instruction writes the sum of bytes. -/
theorem addImmediateWrapsWithoutFlag : Obligations.AddImmediateWrapsWithoutFlag := fun x nn s =>
  ⟨fun _ hw => eq_encXNN_of_toNat (g := 0x7#4) hw rfl ▸ decode_encode (i := .addImm x nn) rfl,
    answers_setReg (·.toNat = ((s.reg x).toNat + nn.toNat) % 256) rfl (BitVec.toNat_add _ _)⟩

/-- Settles O37: each of the four writes one register, and the operations on bytes are those on their bits. -/
theorem copyAndLogicAreBitwise : Obligations.CopyAndLogicAreBitwise := fun x y s =>
  ⟨answers_setReg (· = s.reg y) rfl rfl,
    answers_setReg (fun b => ∀ k, b.getLsbD k = ((s.reg x).getLsbD k || (s.reg y).getLsbD k)) rfl fun _ => BitVec.getLsbD_or,
    answers_setReg (fun b => ∀ k, b.getLsbD k = ((s.reg x).getLsbD k && (s.reg y).getLsbD k)) rfl fun _ => BitVec.getLsbD_and,
    answers_setReg (fun b => ∀ k, b.getLsbD k = ((s.reg x).getLsbD k ^^ (s.reg y).getLsbD k)) rfl fun _ => BitVec.getLsbD_xor⟩

/-- Settles O38: WriteRF with the sum and the carry. -/
theorem addSetsCarry : Obligations.AddSetsCarry := fun _ _ _ =>
  answers_writeRF rfl (BitVec.toNat_add _ _) (flagByte_carryOut_toNat _ _)

/-- Settles O39: WriteRF with the difference and the no-borrow flag, minuend V[X] for SUB and V[Y] for SUBN. -/
theorem subtractSetsNoBorrow : Obligations.SubtractSetsNoBorrow := fun _ _ _ =>
  ⟨answers_writeRF rfl (sub_toNat _ _) (flagByte_noBorrow_toNat _ _), answers_writeRF rfl (sub_toNat _ _) (flagByte_noBorrow_toNat _ _)⟩

/-- Settles O40: WriteRF with the shifted operand and the bit moved out, then the two values of the open parameter shift_source. -/
theorem shiftsMoveOneBitOut : Obligations.ShiftsMoveOneBitOut := by
  intro x y s
  constructor
  · obtain ⟨t, ht, hpc, hframe, hwrote⟩ :=
      answers_writeRF (i := .shr x y) (s := s) rfl (shiftRight_one_toNat _) (flagByte_lowBit_toNat _)
    exact ⟨t, ht, hpc, hframe, shiftOperand_cases (fun a => WroteRF x (a.toNat / 2) (a.toNat % 2) t) hwrote⟩
  · obtain ⟨t, ht, hpc, hframe, hwrote⟩ :=
      answers_writeRF (i := .shl x y) (s := s) rfl (shiftLeft_one_toNat _) (flagByte_highBit_toNat _)
    exact ⟨t, ht, hpc, hframe, shiftOperand_cases (fun a => WroteRF x (a.toNat * 2 % 256) (a.toNat / 128) t) hwrote⟩

end Sys2Proof.Safety
end

section
/-! PROOFS. What the index instructions and the memory transfers answer, with their range checks passed or failed (44_index_memory.md,
20_memory.md R59). -/

namespace Sys2Proof.Safety

open Sys2Proof.Machine

/-! ## The index register -/

theorem within_setI_index {f : Touches} {s : State} (h : f.index = true) (a : Word) : Within f s (s.setI a) :=
  within_setI fun hkept => absurd (h.symm.trans hkept) (by decide)

/-- An instruction that ends in a write of I and the advance of PC, with the value written as a number. -/
theorem answers_setI {i : Instr} {s : State} {a : Word} {n : Nat} (h : exec i s = .next (s.setI a).advance) (ha : a.toNat = n) :
    ∃ t, exec i s = .next t ∧ t.i.toNat = n ∧ t.pc = s.pc + 2#16 ∧ Within { index := true } s t :=
  ⟨_, h, ha, rfl, (within_setI_index rfl _).trans (within_advance _ _)⟩

theorem lowNibble_toNat (s : State) (x : Nibble) : (lowNibble s x).toNat = (s.reg x).toNat % 16 := by
  simp [lowNibble, BitVec.extractLsb'_toNat]

theorem glyphAddr_toNat (d : Nibble) : (glyphAddr d).toNat = 5 * d.toNat := by
  have := d.isLt
  have hvalue : Config.fontBase + d.toNat * Config.glyphLen = 5 * d.toNat := by
    rw [Nat.zero_add, Nat.mul_comm]
  rw [glyphAddr, hvalue, BitVec.toNat_ofNat]
  omega

/-- After a transfer inside memory I + X + 1 does not wrap (44_index_memory.md R204, R205). -/
theorem quirkIndex_toNat {s : State} {x : Nibble} (h : s.i.toNat + x.toNat < Config.memSize) :
    (quirkIndex s x).toNat = if s.q = true then s.i.toNat + x.toNat + 1 else s.i.toNat := by
  replace h : s.i.toNat + x.toNat < 4096 := h
  have hx : (x.setWidth 16).toNat = x.toNat := by
    have := x.isLt
    rw [BitVec.toNat_setWidth]
    omega
  rw [quirkIndex]
  split
  · bv_omega
  · rfl

/-! ## Range checks that raise (20_memory.md R59) -/

theorem checkRead_outside {a n : Nat} (hn : 0 < n) (h : Config.memSize < a + n) :
    checkRead a n = some ⟨.memoryOutOfRange, some (max a Config.memSize)⟩ := by
  cases hc : checkRead a n with
  | none => rcases checkRead_eq_none.mp hc <;> omega
  | some r =>
    obtain ⟨rfl, -⟩ := checkRead_eq_some hc
    rfl

theorem checkWrite_font {a n : Nat} (hn : 0 < n) (h : a < Config.fontLen) : checkWrite a n = some ⟨.readOnlyWrite, some a⟩ := by
  cases hc : checkWrite a n with
  | none => rcases checkWrite_eq_none.mp hc <;> omega
  | some r =>
    rcases checkWrite_eq_some hc with ⟨-, rfl⟩ | ⟨hlo, -⟩
    · rfl
    · omega

theorem checkWrite_outside {a n : Nat} (hn : 0 < n) (hlo : Config.fontLen ≤ a) (h : Config.memSize < a + n) :
    checkWrite a n = some ⟨.memoryOutOfRange, some (max a Config.memSize)⟩ := by
  cases hc : checkWrite a n with
  | none => rcases checkWrite_eq_none.mp hc <;> omega
  | some r =>
    rcases checkWrite_eq_some hc with ⟨hfont, -⟩ | ⟨-, -, rfl⟩
    · omega
    · rfl

/-- An instruction whose range check raises latches what the check raised, with its own word. -/
theorem latches_of_check {i : Instr} {s u : State} {c : Option Raise} {w : Nat} {kind : Fault} {addr : Option Nat}
    (h : exec i s = runOrFault i s (guarded c u)) (hw : (encode i).toNat = w) (hc : c = some ⟨kind, addr⟩) :
    ∃ t, exec i s = .next t ∧ Latches s t kind (some w) addr := by
  subst hw hc
  exact ⟨_, h, latches_takeFault s i _⟩

/-- The value of a word of group F, whose low byte names the instruction (30_encoding.md R74). -/
theorem encXNN_groupF_toNat (x : Nibble) (nn : Byte) : (encXNN 0xF#4 x nn).toNat = 0xF000 + nn.toNat + 0x100 * x.toNat := by
  rw [encXNN_toNat, show (0xF#4).toNat = 15 from rfl]
  omega

theorem encode_drw_toNat (x y n : Nibble) : (encode (.drw x y n)).toNat = 0xD000 + 0x100 * x.toNat + 0x10 * y.toNat + n.toNat := by
  rw [encode, encXYN_toNat, show (0xD#4).toNat = 13 from rfl]
  omega

/-! ## Range checks that pass -/

/-- FX33 with its three bytes inside memory and above the font. -/
theorem exec_ldB_stores {x : Nibble} {s : State} (hlo : Config.fontLen ≤ s.i.toNat) (hhi : s.i.toNat + 3 ≤ Config.memSize) :
    exec (.ldB x) s = .next (s.storeBytes s.i.toNat (bcdDigits (s.reg x))).advance := by
  rw [exec, execLdB, checkWrite_eq_none.mpr (.inr ⟨hlo, hhi⟩), guarded_none, runOrFault_ok]

/-- FX55 with its X + 1 bytes inside memory and above the font. -/
theorem exec_ldMemVx_stores {x : Nibble} {s : State} (hlo : Config.fontLen ≤ s.i.toNat) (hhi : s.i.toNat + (x.toNat + 1) ≤ Config.memSize) :
    exec (.ldMemVx x) s = .next ((s.storeBytes s.i.toNat (regBlock s x)).setI (quirkIndex s x)).advance := by
  rw [exec, execLdMemVx, checkWrite_eq_none.mpr (.inr ⟨hlo, hhi⟩), guarded_none, runOrFault_ok]

/-- FX65 with its X + 1 bytes inside memory. -/
theorem exec_ldVxMem_loads {x : Nibble} {s : State} (hhi : s.i.toNat + (x.toNat + 1) ≤ Config.memSize) :
    exec (.ldVxMem x) s = .next ((loadRegs s s.i.toNat x).setI (quirkIndex s x)).advance := by
  rw [exec, execLdVxMem, checkRead_eq_none.mpr (.inr hhi), guarded_none, runOrFault_ok]

/-- The register block, written inside memory, reads back register by register. -/
theorem memRead_memWriteList_regBlock {m : Memory} {a : Nat} {x k : Nibble} (s : State) (hm : MemWF m)
    (hhi : a + (x.toNat + 1) ≤ Config.memSize) (hk : k.toNat ≤ x.toNat) : memRead (memWriteList m a (regBlock s x)) (a + k.toNat) = s.reg k := by
  have hlen := regBlock_length s x
  rw [memRead_memWriteList (regBlock s x) (by omega) (by omega) hm, regBlock_getElem]

theorem Within.fault_eq {f : Touches} {s t : State} (h : Within f s t) (hf : f.latch = false) : t.fault = s.fault := by
  obtain ⟨-, -, -, -, -, -, -, -, -, latch, -⟩ := h
  exact latch hf

/-- The digits of FX33, written inside memory, read back: hundreds, tens, ones (44_index_memory.md R203). -/
theorem memRead_memWriteList_bcdDigits {m : Memory} {a : Nat} (v : Byte) (hm : MemWF m) (hhi : a + 3 ≤ Config.memSize) :
    (memRead (memWriteList m a (bcdDigits v)) a).toNat = v.toNat / 100
    ∧ (memRead (memWriteList m a (bcdDigits v)) (a + 1)).toNat = v.toNat / 10 % 10
    ∧ (memRead (memWriteList m a (bcdDigits v)) (a + 2)).toNat = v.toNat % 10 := by
  have hdigit (k : Nat) (hk : k < 3) : memRead (memWriteList m a (bcdDigits v)) (a + k) = (bcdDigits v)[k] :=
    memRead_memWriteList (bcdDigits v) hk hhi hm
  exact ⟨congrArg BitVec.toNat (hdigit 0 (by decide)), congrArg BitVec.toNat (hdigit 1 (by decide)),
    congrArg BitVec.toNat (hdigit 2 (by decide))⟩

end Sys2Proof.Safety
end

section
/-! PROOFS. The obligations of 44_index_memory.md. -/

namespace Sys2Proof.Safety

open Sys2Proof.Machine

/-- Settles O41: each of the three writes I, and the value written is the one stated. -/
theorem indexLoads : Obligations.IndexLoads := by
  intro nnn x s
  refine ⟨answers_setI rfl (addrOperand_toNat nnn), answers_setI rfl ?_, answers_setI rfl ?_⟩
  · rw [BitVec.toNat_add, wideReg_toNat]
  · rw [glyphAddr_toNat, lowNibble_toNat]

/-- Settles O42: the check passes, and the stored digits read back. -/
theorem decimalDigitsAreStored : Obligations.DecimalDigitsAreStored := by
  intro x s hlo hhi hm
  have hv := (s.reg x).isLt
  obtain ⟨hhundreds, htens, hones⟩ := memRead_memWriteList_bcdDigits (s.reg x) hm hhi
  refine ⟨_, exec_ldB_stores hlo hhi, ?_, ?_, ?_, ?_, rfl, (within_storeBytes rfl rfl).trans (within_advance _ _)⟩
  all_goals
    simp only [advance_mem, storeBytes_mem, hhundreds, htens, hones]
    omega

/-- Settles O43: the check passes, and the stored register block reads back. -/
theorem bulkStoreCopiesRegisters : Obligations.BulkStoreCopiesRegisters := by
  intro x s hlo hhi hm
  exact ⟨_, exec_ldMemVx_stores hlo hhi, fun k hk => memRead_memWriteList_regBlock s hm hhi hk, quirkIndex_toNat hhi, rfl,
    ((within_storeBytes rfl (regBlock_length s x)).trans (within_setI_index rfl _)).trans (within_advance _ _)⟩

/-- Settles O44: the check passes, and each register up to X holds its byte. -/
theorem bulkLoadCopiesMemory : Obligations.BulkLoadCopiesMemory := by
  intro x s hhi
  exact ⟨_, exec_ldVxMem_loads hhi, fun k hk => (loadRegs_reg s s.i.toNat x k).trans (if_pos hk), quirkIndex_toNat hhi, rfl,
    ((within_loadRegs (fun _ hj => decide_eq_true hj) _).trans (within_setI_index rfl _)).trans (within_advance _ _)⟩

/-- Settles O45: the check of each store raises what is latched; a last byte past memory puts I above the font. -/
theorem storeFaultsLatch : Obligations.StoreFaultsLatch := by
  intro x s
  have habove {n : Nat} (hn : n ≤ 15) (hhi : 4096 ≤ s.i.toNat + n) : 80 ≤ s.i.toNat := by omega
  have hwB : (encode (.ldB x)).toNat = 0xF033 + 0x100 * x.toNat := encXNN_groupF_toNat x 0x33#8
  have hwMem : (encode (.ldMemVx x)).toNat = 0xF055 + 0x100 * x.toNat := encXNN_groupF_toNat x 0x55#8
  refine ⟨fun hlo => ⟨?_, ?_⟩, fun hhi => ?_, fun hhi => ?_⟩
  · exact latches_of_check rfl hwB (checkWrite_font (Nat.succ_pos 2) hlo)
  · exact latches_of_check rfl hwMem (checkWrite_font x.toNat.succ_pos hlo)
  · exact latches_of_check rfl hwB (checkWrite_outside (Nat.succ_pos 2) (habove (by decide) hhi) (Nat.lt_succ_of_le hhi))
  · exact latches_of_check rfl hwMem (checkWrite_outside x.toNat.succ_pos (habove (Nat.le_of_lt_succ x.isLt) hhi) (Nat.lt_succ_of_le hhi))

/-- Settles O46: the check of each read raises what is latched. -/
theorem readFaultsLatch : Obligations.ReadFaultsLatch := by
  intro x y n s
  refine ⟨fun hhi => ?_, fun hn hhi => ?_⟩
  · exact latches_of_check rfl (encXNN_groupF_toNat x 0x65#8) (checkRead_outside x.toNat.succ_pos (Nat.lt_succ_of_le hhi))
  · exact latches_of_check rfl (encode_drw_toNat x y n) (checkRead_outside hn hhi)

/-- Settles O47: the store that ran fixes the range, so the load passes its check and reads the stored bytes. -/
theorem storeThenLoadRestoresRegisters : Obligations.StoreThenLoadRestoresRegisters := by
  intro x s t r u hm _ hstore ht hmem hi hq hr hload
  obtain ⟨hrange, -⟩ := exec_ldMemVx_mem hstore ht
  obtain ⟨u', hu', hregs, hindex, -, hframe⟩ := bulkLoadCopiesMemory x r (hi ▸ hrange)
  cases hload.symm.trans hu'
  refine ⟨(hframe.fault_eq rfl).trans hr, fun k hk => ?_, by rw [hindex, hi, hq]⟩
  rw [hregs k hk, hmem, hi, memRead_exec_ldMemVx hm hstore ht hk]

end Sys2Proof.Safety
end

section
/-! PROOFS. What CLS and DRW make of the display, with the loops of R233 in the closed form of `spriteOver` (45_display.md). -/

namespace Sys2Proof.Safety

open Sys2Proof.Machine

/-! ## The sprite over the display -/

/-- A sprite is no higher than the display, so none of its rows wraps onto another. -/
theorem spriteHeight_le (n : Nibble) : n.toNat ≤ 32 := Nat.le_trans (Nat.le_of_lt n.isLt) (by decide)

/-- The rows of a sprite, read as blank below its height. -/
theorem memReadList_getD (m : Memory) (a n k : Nat) : (memReadList m a n).getD k 0 = if k < n then memRead m (a + k) else 0 := by
  split
  case isTrue hk =>
    have hlen : k < (memReadList m a n).length := by rwa [memReadList_length]
    rw [List.getD_eq_getElem _ _ hlen, memReadList_getElem]
  case isFalse hk =>
    exact List.getD_eq_default _ _ (by rw [memReadList_length]; omega)

theorem memReadList_getElem?_eq_some {m : Memory} {a n k : Nat} {row : Byte} :
    (memReadList m a n)[k]? = some row ↔ k < n ∧ memRead m (a + k) = row := by
  rw [List.getElem?_eq_some_iff]
  simp only [memReadList_length, memReadList_getElem, exists_prop]

/-- The sprite has a set bit over a pixel exactly when the pixel is one of those the loops of R233 visit with a set bit. -/
theorem spriteOver_eq_true {m : Memory} {a n x y : Nat} {r : Fin 32} {c : Fin 64} (hn : n ≤ 32) :
    spriteOver m a n x y r c = true ↔
      ∃ k < n, ∃ j < 8, spriteBit (memRead m (a + k)) j = true ∧ r = wrapRow (y + k) ∧ c = wrapCol (x + j) := by
  simp only [spriteOver, Bool.and_eq_true, decide_eq_true_eq]
  constructor
  · rintro ⟨⟨hk, hj⟩, hbit⟩
    exact ⟨_, hk, _, hj, hbit, (wrapRow_eq (by omega) r).mpr rfl, (wrapCol_eq (by omega) c).mpr rfl⟩
  · rintro ⟨k, hk, j, hj, hbit, hr, hc⟩
    rw [(wrapRow_eq (by omega) r).mp hr, (wrapCol_eq (by omega) c).mp hc]
    exact ⟨⟨hk, hj⟩, hbit⟩

/-- A byte is 0 exactly when it lights nothing. -/
theorem byte_ne_zero_iff_spriteBit {b : Byte} : b ≠ 0#8 ↔ ∃ j < 8, spriteBit b j = true := by
  revert b
  decide

/-- A sprite has a set bit over some pixel exactly when one of its bytes is not 0. -/
theorem exists_spriteOver {m : Memory} {a n x y : Nat} (hn : n ≤ 32) :
    (∃ r c, spriteOver m a n x y r c = true) ↔ ∃ k, k < n ∧ memRead m (a + k) ≠ 0#8 := by
  simp only [spriteOver_eq_true hn, byte_ne_zero_iff_spriteBit]
  constructor
  · rintro ⟨r, c, k, hk, j, hj, hbit, -⟩
    exact ⟨k, hk, j, hj, hbit⟩
  · rintro ⟨k, hk, j, hj, hbit⟩
    exact ⟨_, _, k, hk, j, hj, hbit, rfl, rfl⟩

/-- Only the bytes of memory matter to a sprite, not the form they are kept in. -/
theorem spriteOver_congr {m m' : Memory} (h : ∀ b, memRead m' b = memRead m b) (a n x y : Nat) (r : Fin 32) (c : Fin 64) :
    spriteOver m' a n x y r c = spriteOver m a n x y r c := by
  simp only [spriteOver, h]

/-! ## DrawSprite in closed form (R233) -/

theorem pixel_drawSprite (d : Display) (x y : Byte) (m : Memory) (a : Nat) {n : Nat} (hn : n ≤ 32) (r : Fin 32) (c : Fin 64) :
    pixel (drawSprite d x y (memReadList m a n)).1 r c = (pixel d r c ^^ spriteOver m a n x.toNat y.toNat r c) := by
  rw [drawSprite, pixel_blitRows _ _ _ _ _ _ (by rwa [memReadList_length]), memReadList_getD]
  split
  case isTrue hk | isFalse hk => simp [spriteOver, spriteBit, hk]

/-- The collision bit: some pixel lit before the draw is dark after it (R234). -/
theorem drawSprite_hit (d : Display) (x y : Byte) (m : Memory) (a : Nat) {n : Nat} (hn : n ≤ 32) :
    (drawSprite d x y (memReadList m a n)).2 = true ↔
      ∃ r c, pixel d r c = true ∧ pixel (drawSprite d x y (memReadList m a n)).1 r c = false := by
  have hdark (r : Fin 32) (c : Fin 64) : pixel d r c = true ∧ pixel (drawSprite d x y (memReadList m a n)).1 r c = false ↔
      pixel d r c = true ∧ spriteOver m a n x.toNat y.toNat r c = true := by
    rw [pixel_drawSprite d x y m a hn]
    refine and_congr_right fun hlit => ?_
    rw [hlit, Bool.true_xor, Bool.not_eq_false']
  have hvisited := blitRows_hit x.toNat (memReadList m a n) y.toNat (d, false) (by rwa [memReadList_length])
  simp only [hdark, spriteOver_eq_true hn]
  rw [drawSprite, hvisited]
  simp only [memReadList_getElem?_eq_some]
  constructor
  · rintro (hfalse | ⟨k, _, ⟨hk, rfl⟩, j, hj, hbit, hlit⟩)
    · cases hfalse
    · exact ⟨_, _, hlit, k, hk, j, hj, hbit, rfl, rfl⟩
  · rintro ⟨_, _, hlit, k, hk, j, hj, hbit, rfl, rfl⟩
    exact .inr ⟨k, _, ⟨hk, rfl⟩, j, hj, hbit, hlit⟩

/-! ## DRW with its check passed (R234) -/

/-- DRW without a fault had its sprite inside memory, or no sprite at all. -/
theorem exec_drw_range {x y n : Nibble} {s t : State} (h : exec (.drw x y n) s = .next t) (ht : t.fault = none) :
    n.toNat = 0 ∨ s.i.toNat + n.toNat ≤ Config.memSize := by
  rcases runOrFault_guarded_cases h with ⟨hc, -⟩ | ⟨r, -, rfl⟩
  · exact checkRead_eq_none.mp hc
  · cases ht

/-- DRW with its sprite inside memory: the display xor the sprite, and the flag that says whether a lit pixel went dark. -/
theorem exec_drw_draws {x y n : Nibble} {s : State} (hrange : n.toNat = 0 ∨ s.i.toNat + n.toNat ≤ Config.memSize) :
    ∃ t, exec (.drw x y n) s = .next t
      ∧ (∀ r c, pixel t.disp r c = (pixel s.disp r c ^^ spriteOver s.mem s.i.toNat n.toNat (s.reg x).toNat (s.reg y).toNat r c))
      ∧ t.reg regF = flagByte (decide (∃ r c, pixel s.disp r c = true ∧ pixel t.disp r c = false))
      ∧ t.pc = s.pc + 2#16 ∧ Within { regs := onlyReg regF, display := true } s t := by
  have hn := spriteHeight_le n
  refine ⟨_, by rw [exec, execDrw, checkRead_eq_none.mpr hrange, guarded_none, runOrFault_ok],
    fun r c => pixel_drawSprite s.disp (s.reg x) (s.reg y) s.mem s.i.toNat hn r c, ?_, rfl,
    ((within_setDisp rfl _).trans (within_setReg (onlyReg_self regF) _)).trans (within_advance _ _)⟩
  rw [advance_reg, reg_setReg_same]
  exact congrArg flagByte (Bool.eq_iff_iff.mpr ((drawSprite_hit _ _ _ _ _ hn).trans decide_eq_true_iff.symm))

theorem flagByte_eq_one {b : Bool} : flagByte b = 1#8 ↔ b = true := by
  cases b <;> decide

end Sys2Proof.Safety
end

section
/-! PROOFS. The obligations of 45_display.md. -/

namespace Sys2Proof.Safety

open Sys2Proof.Machine

/-- Settles O49: the words that decode to CLS are its encoding alone, and CLS writes the clear display. -/
theorem clearScreenClearsEveryPixel : Obligations.ClearScreenClearsEveryPixel := by
  refine ⟨fun w => ⟨fun h => ?_, fun h => ?_⟩, fun s => ⟨_, rfl, pixel_clearDisplay, rfl, (within_setDisp rfl _).trans (within_advance _ _)⟩⟩
  · obtain ⟨-, rfl⟩ := encode_of_decode h
    rfl
  · obtain rfl : w = encode .cls := BitVec.eq_of_toNat_eq h
    exact decode_encode rfl

/-- Settles O50: the check passes, and the collision clauses are the two values of the flag. -/
theorem drawXorsTheSpriteOntoTheDisplay : Obligations.DrawXorsTheSpriteOntoTheDisplay := by
  intro x y n s hrange
  obtain ⟨t, ht, hpixel, hflag, hpc, hframe⟩ := exec_drw_draws hrange
  refine ⟨t, ht, hpixel, fun hhit => ?_, fun hkept => ?_, hpc, hframe⟩
  · rw [hflag, decide_eq_true hhit]
    rfl
  · have hmiss : ¬ ∃ r c, pixel s.disp r c = true ∧ pixel t.disp r c = false := by
      rintro ⟨r, c, hlit, hdark⟩
      exact absurd ((hkept r c hlit).symm.trans hdark) (by decide)
    rw [hflag, decide_eq_false hmiss]
    rfl

/-- Settles O51: the second draw has the sprite of the first over every pixel, so it undoes the xor; from a clear display it darkens
exactly the pixels under a set bit. -/
theorem drawingTwiceRestoresTheDisplay : Obligations.DrawingTwiceRestoresTheDisplay := by
  intro x y n s t u hx hy _ hfirst ht hsecond
  have hrange := exec_drw_range hfirst ht
  obtain ⟨t', ht', hpixel, -, -, hframe⟩ := exec_drw_draws (x := x) (y := y) hrange
  cases hfirst.symm.trans ht'
  have hi : t.i = s.i := hframe.i_eq rfl
  have hkept {j : Nibble} (hj : j ≠ regF) : t.reg j = s.reg j := hframe.reg_eq (beq_eq_false_iff_ne.mpr hj)
  obtain ⟨u', hu', hpixel', hflag, -⟩ := exec_drw_draws (x := x) (y := y) (hi ▸ hrange)
  cases hsecond.symm.trans hu'
  have hrestored (r : Fin 32) (c : Fin 64) : pixel u.disp r c = pixel s.disp r c := by
    rw [hpixel' r c, hpixel r c, hi, hkept hx, hkept hy, spriteOver_congr (fun _ => hframe.memRead_eq rfl), Bool.xor_assoc, Bool.xor_self,
      Bool.xor_false]
  refine ⟨hrestored, fun hclear => ?_⟩
  rw [hflag, flagByte_eq_one, decide_eq_true_iff]
  simp only [hrestored, hpixel, hclear, Bool.false_xor, and_true]
  exact exists_spriteOver (spriteHeight_le n)

end Sys2Proof.Safety
end

section
/-! PROOFS. The key a register names, a timer one tick later, and the frames of the host's two writes (46_input_timers_random.md). -/

namespace Sys2Proof.Safety

open Sys2Proof.Machine

/-! ## Keys -/

/-- The key of SKP and SKNP, numbered by V[X] modulo 16 (R260, R261). -/
theorem keyDown_lowNibble (s : State) (x : Nibble) : s.keyDown (lowNibble s x) = s.key.get (Fin.ofNat 16 (s.reg x).toNat) := by
  rw [State.keyDown, Vector.get_eq_getElem]
  simp only [lowNibble_toNat, Fin.val_ofNat]

@[simp] theorem keyDown_putKey_same (s : State) (k : Nibble) (b : Bool) : (s.putKey k b).keyDown k = b :=
  (keyDown_putKey s k k b).trans (if_pos rfl)

/-- SetKey touches its one key. -/
theorem within_putKey {f : Touches} {k : Nibble} (hk : f.key k = true) (s : State) (b : Bool) : Within f s (s.putKey k b) := by
  have hother (j : Nibble) (hj : f.key j = false) : (s.putKey k b).keyDown j = s.keyDown j := by
    rw [keyDown_putKey, if_neg]
    rintro rfl
    cases hk.symm.trans hj
  simpa [Within] using hother

/-! ## Timers -/

/-- A tick floored at 0 is the truncated subtraction of numbers (R275). -/
theorem countDown_toNat (b : Byte) : (countDown b).toNat = b.toNat - 1 := by
  rw [countDown]
  split
  case isTrue hzero => rw [hzero]; rfl
  case isFalse hpos => bv_omega

end Sys2Proof.Safety
end

section
/-! PROOFS. The obligations of 46_input_timers_random.md. -/

namespace Sys2Proof.Safety

open Sys2Proof.Machine

/-- Settles O34: each of the two is a skip, which moves PC alone, on the key V[X] names or on its negation. -/
theorem keySkips : Obligations.KeySkips := by
  intro x s
  refine ⟨⟨_, rfl, ?_, within_skipIf _ s _⟩, ⟨_, rfl, ?_, within_skipIf _ s _⟩⟩
  · rw [skipIf_pc_add, keyDown_lowNibble]
  · simp only [skipIf_pc_add, keyDown_lowNibble, Bool.not_eq_true', ← Bool.not_eq_true, ite_not]

/-- Settles O52: each of the three writes its one destination and advances PC. -/
theorem timerMoves : Obligations.TimerMoves := fun _ s =>
  ⟨answers_setReg (· = s.dt) rfl rfl,
    ⟨_, rfl, rfl, rfl, (within_setDt rfl _).trans (within_advance _ _)⟩,
    ⟨_, rfl, rfl, rfl, (within_setSt rfl _).trans (within_advance _ _)⟩⟩

/-- Settles O53: one draw advances the lanes, and V[X] takes the byte drawn, whose bits the mask selects. -/
theorem randomByteIsMaskedDraw : Obligations.RandomByteIsMaskedDraw := by
  intro x nn s
  refine ⟨_, rfl, fun k => ?_, rfl, rfl, exec_within (i := .rnd x nn) rfl⟩
  rw [advance_reg, reg_setReg_same, State.prngByte, BitVec.getLsbD_and]

/-- Settles O54: FX0A is a fault entry with its own word, and R301 gives its kind another code than DecodeFailure. -/
theorem waitForKeyLatchesUnimplemented : Obligations.WaitForKeyLatchesUnimplemented := by
  intro x s
  have hword : (encode (.ldVxK x)).toNat = 0xF00A + 0x100 * x.toNat := encXNN_groupF_toNat x 0x0A#8
  rw [← hword]
  exact ⟨_, rfl, latches_takeFault s (.ldVxK x) ⟨.unimplementedOpcode, none⟩, rfl, rfl⟩

/-- Settles O55: each timer counts down on its own, and the two writes leave the rest of the state as it is. -/
theorem timerTickCountsDownToZero : Obligations.TimerTickCountsDownToZero := fun s =>
  ⟨_, rfl, countDown_toNat s.dt, countDown_toNat s.st, rfl, (within_setDt rfl _).trans (within_setSt rfl _)⟩

/-- Settles O56: SetKey writes the one key and nothing else. -/
theorem setKeyWritesOneKey : Obligations.SetKeyWritesOneKey := fun k b s =>
  ⟨_, rfl, keyDown_putKey_same s k b, rfl, within_putKey (beq_self_eq_true k) s b⟩

end Sys2Proof.Safety
end

section
/-! PROOFS. What Reset answers, and the machine it answers, piece by piece (70_reset_and_hazards.md R340 to R342). -/

namespace Sys2Proof.Safety

open Sys2Proof.Machine

/-! ## The image's length decides the answer (R341) -/

/-- The state Reset makes of an accepted image. -/
def freshState (rom : List Byte) (ls : Bool) : State :=
  { State.reset with mem := memWriteList State.reset.mem Config.progBase rom, q := ls }

theorem resetWith_of_fits {rom : List Byte} (h : rom.length ≤ Config.maxRom) (ls : Bool) : resetWith rom ls = .next (freshState rom ls) :=
  if_pos h

theorem resetWith_of_too_long {rom : List Byte} (h : Config.maxRom < rom.length) (ls : Bool) : resetWith rom ls = .refused .romTooLong :=
  if_neg (Nat.not_le.mpr h)

/-! ## Memory after Reset -/

/-- Outside the image memory holds its reset contents. -/
theorem memRead_freshState_outside {rom : List Byte} {a : Nat} (h : a < Config.progBase ∨ Config.progBase + rom.length ≤ a) (ls : Bool) :
    memRead (freshState rom ls).mem a = unlistedByte a :=
  memRead_memWriteList_outside rom [] Config.progBase h

/-- Byte k of an accepted image is at 0x200 + k: the image fits in memory, and empty memory is canonical. -/
theorem memRead_freshState_image {rom : List Byte} {k : Nat} {b : Byte} (hlen : rom.length ≤ Config.maxRom) (hb : rom[k]? = some b)
    (ls : Bool) : memRead (freshState rom ls).mem (Config.progBase + k) = b := by
  obtain ⟨hk, rfl⟩ := List.getElem?_eq_some_iff.mp hb
  have hempty : MemWF [] := by decide
  exact memRead_memWriteList rom hk (Nat.add_le_add_left hlen Config.progBase) hempty

theorem unlistedByte_font {a : Nat} (h : a < Config.fontLen) : unlistedByte a = Config.font a := if_pos h

theorem unlistedByte_above_font {a : Nat} (h : Config.fontLen ≤ a) : unlistedByte a = 0#8 := if_neg (Nat.not_lt.mpr h)

/-! ## Registers, stack and keys after Reset (10_state.md R33) -/

@[simp] theorem freshState_reg (rom : List Byte) (ls : Bool) (j : Nibble) : (freshState rom ls).reg j = 0#8 :=
  Vector.getElem_replicate j.isLt

@[simp] theorem freshState_stack_get (rom : List Byte) (ls : Bool) (k : Fin 16) : (freshState rom ls).stack.get k = 0#16 :=
  Vector.getElem_replicate k.isLt

@[simp] theorem freshState_keyDown (rom : List Byte) (ls : Bool) (k : Nibble) : (freshState rom ls).keyDown k = false :=
  Vector.getElem_replicate k.isLt

/-! ## The first fetch (R342) -/

/-- The first fetch reads the first two bytes of an accepted image, the first one as the high byte. -/
theorem freshState_fetchWord {b0 b1 : Byte} {rest : List Byte} (hlen : (b0 :: b1 :: rest).length ≤ Config.maxRom) (ls : Bool) :
    (freshState (b0 :: b1 :: rest) ls).fetchWord = wordOfBytes b0 b1 :=
  congrArg₂ wordOfBytes (memRead_freshState_image (k := 0) hlen rfl ls) (memRead_freshState_image (k := 1) hlen rfl ls)

end Sys2Proof.Safety
end

section
/-! PROOFS. The obligations of 70_reset_and_hazards.md. -/

namespace Sys2Proof.Safety

open Sys2Proof.Machine

/-- Settles O58: memory is the reset contents with the image written over them, and every other piece is a constant of the state after
Reset or its argument. -/
theorem resetLeavesTheSpecifiedState : Obligations.ResetLeavesTheSpecifiedState := by
  intro rom ls s hlen
  have hfont (a : Nat) (ha : a < 0x50) : memRead (freshState rom ls).mem a = Config.font a :=
    (memRead_freshState_outside (.inl (Nat.lt_trans ha (by decide))) ls).trans (unlistedByte_font ha)
  have hzero (a : Nat) (ha : 0x50 ≤ a) (hout : a < 0x200 ∨ 0x200 + rom.length ≤ a) : memRead (freshState rom ls).mem a = 0#8 :=
    (memRead_freshState_outside hout ls).trans (unlistedByte_above_font ha)
  have hempty : rom = [] → ls = false → freshState rom ls = State.reset := by
    rintro rfl rfl
    rfl
  exact ⟨freshState rom ls, resetWith_of_fits hlen ls, hfont, fun _ _ hb => memRead_freshState_image hlen hb ls, hzero,
    freshState_reg rom ls, rfl, rfl, rfl, freshState_stack_get rom ls, rfl, rfl, freshState_keyDown rom ls, pixel_clearDisplay,
    rfl, rfl, rfl, hempty⟩

/-- Settles O59: a state is answered for an accepted image alone, and it is the one with the image at 0x200. -/
theorem executionStartsAtTheImage : Obligations.ExecutionStartsAtTheImage := by
  intro rom ls s t h
  obtain ⟨hlen, ht⟩ := resetWith_next h
  obtain rfl : t = freshState rom ls := ht
  refine ⟨rfl, fun k b hb => memRead_freshState_image hlen hb ls, ?_⟩
  rintro b0 b1 rest rfl
  rw [freshState_fetchWord hlen, wordOfBytes_toNat]

/-- Settles O60: the check of the length has two outcomes, and the other one is a state. -/
theorem resetRefusesLongImages : Obligations.ResetRefusesLongImages := by
  intro rom ls s
  refine ⟨fun hrefused => ?_, fun hlong => resetWith_of_too_long hlong ls⟩
  by_contra hfits
  cases hrefused.symm.trans (resetWith_of_fits (Nat.not_lt.mp hfits) ls)

end Sys2Proof.Safety
end
